-- ==== Sys2Proof/Word.lean ====
section
/-! DEFINITION. The word types of the core (00_scope R7, R8; 10_state R16, R25). -/

namespace Sys2Proof

/-- A memory byte, a V register, an 8-bit immediate `nn` (R7 `V_WIDTH`, R36). -/
abbrev Byte := BitVec 8

/-- A 16-bit value: an instruction word, `pc`, a return address (R7, R25, R27). -/
abbrev Word := BitVec 16

/-- A 4-bit half of a byte (R8); the immediate `n` is one. -/
abbrev Nibble := BitVec 4

/-- The 12-bit address operand `nnn` (R59). -/
abbrev Addr := BitVec 12

/-- A register number 0..15 (R16). -/
abbrev Reg := Fin 16

/-- A host time in seconds (R105). -/
abbrev Time := Rat

end Sys2Proof
end

