-- ==== Sys2Proof/Config.lean ====
section
/-! DEFINITION. What an implementation or a host fixes (00_scope R7): the inputs a step samples, the free values, and
the launch parameters that the spec marks OPEN. -/

namespace Sys2Proof

/-- What the host supplies for one step (60_exceptions R140, R141): the time sample, the random byte, the state of the
16 keys (bit k is key k down, 44 R120) and the answer of `isClosed()` at the step's boundary (44 R121). -/
structure StepInput where
  now    : Time
  random : Byte
  keys   : BitVec 16
  closed : Bool
  deriving DecidableEq, Repr, Inhabited

/-- FREE VALUE (log entry 1). The inputs of step number k of a session where the host's list has none ready: any value,
so a claim holds for every draw (41 R94, 43 R105, 44 R120, 60 R141). -/
opaque Config.freeInput : Nat → StepInput

/-- `MEM_SIZE` (R7, 20_memory R36). -/
abbrev Config.memSize : Nat := 0x1000

/-- `PROGRAM_BASE` (R7, 20_memory R38). -/
abbrev Config.programBase : Nat := 0x200

/-- `MAX_PROGRAM` (R7, 20_memory R41). -/
abbrev Config.maxProgram : Nat := 3584

/-- `FONT_BASE` (R7, 20_memory R39). -/
abbrev Config.fontBase : Nat := 0x50

/-- `FONT_GLYPHS * GLYPH_BYTES` (R7, 20_memory R39). -/
abbrev Config.fontBytes : Nat := 80

/-- `TIMER_RATE`, units per second (R7, 43 R106). -/
abbrev Config.timerRate : Time := 60

/-- `SCREEN_W` (R7, 44 R118). -/
abbrev Config.screenW : Nat := 64

/-- `SCREEN_H` (R7, 44 R118). -/
abbrev Config.screenH : Nat := 32

/-- The launch values and parameters that the spec marks OPEN (00_scope R7, 10_state R35): `INIT_V`, `INIT_I`,
`INIT_MEM` (the bytes from address 0 on; bytes it does not list are 0), `INIT_DT`, `INIT_ST`, the host time at
construction, `INIT_FB`, `FONT`, `BCD_PARTIAL`, `STACK_LIMIT`, and the inputs the host has ready. -/
structure Launch where
  initV      : Vector Byte 16
  initI      : Nat
  initMem    : List Byte
  initDT     : Byte
  initST     : Byte
  startTime  : Time
  initFB     : Vector (Vector Bool 64) 32
  font       : Vector Byte 80
  bcdPartial : Bool
  stackLimit : Option Nat
  pending    : List StepInput
  deriving DecidableEq, Repr

end Sys2Proof
end

