-- ==== Sys2Proof/Machine/State.lean ====
section
/-! DEFINITION. The state of the machine (10_state R16–R35; the Display's framebuffer, 44 R118; the model's own fields,
INVENTORY.md), what can stop it (60_exceptions R127) and the state right after reset. -/

namespace Sys2Proof.Machine

/-- Memory: the cells that differ from what an unlisted address reads as, addresses strictly rising (`Memory.wf`). -/
abbrev Memory := List Host.Cell

/-- The framebuffer, `FB[py][px]` of 44 R115 and R118. -/
abbrev Framebuffer := Vector (Vector Bool 64) 32

/-- A timer: its stored value and its start timestamp (10_state R29, R30). -/
structure Timer where
  stored : Byte
  start  : Time
  deriving DecidableEq, Repr

/-- The fatal errors and their records (60_exceptions R127–R134). `a` is the fetch address of the faulting step. -/
inductive FaultRecord where
  /-- Raised by the decode of any step whose word is illegal: the nibble tuple, the fetch address and the advanced
  `pc` (R129). Safe: the source itself makes it fatal. -/
  | unknownOpcode (n1 n2 n3 n4 : Nibble) (a pc : Word)
  /-- Raised by 00EE on an empty call stack (R130). Safe: the source itself makes it fatal. -/
  | stackUnderflow (a : Word)
  /-- Raised by a fetch, Dxyn, Fx55 or Fx65 that would touch an address above 0xFFF: the first such address (R131).
  Safe: where the design went on, the model stops (the spec's decision D2). -/
  | memoryBounds (a : Word) (addr : Nat)
  /-- Raised by Ex9E and ExA1 when `V[x] > 15` (R132). Safe: where the design answered, the model stops (decision D4). -/
  | keyOutOfRange (a : Word) (k : Byte)
  /-- Raised by 2nnn at a finite `STACK_LIMIT` (R134). Safe: an unbounded stack never raises it. -/
  | stackOverflow (a : Word)
  deriving DecidableEq, Repr

/-- The run status (10_state R32). -/
inductive RunStatus where
  /-- Steps can be taken. -/
  | running
  /-- The run loop saw `isClosed()` answer true (70 R149). -/
  | closed
  /-- A fatal error was raised (60 R128). -/
  | faulted (record : FaultRecord)
  deriving DecidableEq, Repr

/-- The output events of the core: the capability calls and the report of 60_exceptions R140. -/
inductive Event where
  /-- `Display.clear()` (44 R116). -/
  | displayClear
  /-- `Display.draw(x, y, rows)` and its answer (44 R115). -/
  | displayDraw (x y : Byte) (rows : List Byte) (collided : Bool)
  /-- `Display.show()` (44 R117). -/
  | displayShow
  /-- `Control.isPressed(k)` and its answer (44 R120). -/
  | keyQuery (k : Byte) (pressed : Bool)
  /-- `Control.isClosed()` and its answer (44 R121). -/
  | closeQuery (closed : Bool)
  /-- `report BcdRange(a, I)`: the fetch address and `I` (60 R133). -/
  | bcdRange (a : Word) (i : Nat)
  deriving DecidableEq, Repr

/-- The state of the core, of the Display it draws on, and the model's own fields. -/
structure State where
  /-- The 4096 bytes of memory (20_memory R36). -/
  mem : Memory
  /-- V0..VF; `v[15]` is VF (10_state R16, R18). -/
  v : Vector Byte 16
  /-- The index register, unbounded (10_state R22). -/
  i : Nat
  /-- The program counter (10_state R24, R25). -/
  pc : Word
  /-- The call stack, the top at the END of the list (10_state R27, 00_scope R10). -/
  stack : List Word
  /-- The delay timer, `DT_S` and `DT_T` (10_state R29). -/
  dt : Timer
  /-- The sound timer, `ST_S` and `ST_T` (10_state R30). -/
  st : Timer
  /-- The run status (10_state R32). -/
  status : RunStatus
  /-- The Display's framebuffer (44 R118). -/
  fb : Framebuffer
  /-- The open parameter `BCD_PARTIAL` (42 R100); no step changes it. -/
  bcdPartial : Bool
  /-- The open parameter `STACK_LIMIT`, none for unbounded (10_state R27); no step changes it. -/
  stackLimit : Option Nat
  /-- The model's own: the inputs of the current step (60 R141). -/
  input : StepInput
  /-- The model's own: the inputs the host has ready for the coming steps, oldest first. -/
  pending : List StepInput
  /-- The model's own: how many steps have been taken. -/
  steps : Nat
  /-- The model's own: whether `load` has been called (70 R148, R156). -/
  loaded : Bool
  /-- The model's own: the output events so far, oldest first (60 R140, R144). -/
  out : List Event
  deriving DecidableEq, Repr

/-- How the machine stops with a fault. -/
inductive Fault where
  /-- A fatal error (60 R128), raised by whoever `FaultRecord` names: its record, and the state the host then finds
  (R136), whose status is `faulted record`. Safe as the record's own line says. -/
  | fatal (record : FaultRecord) (after : State)
  deriving DecidableEq, Repr

/-- Why the model gives a request no meaning. -/
inductive Refusal where
  /-- Raised by an arm of `exec` that has no meaning yet. Safe: nothing is claimed of the instruction. -/
  | notModelled (mnemonic : String)
  /-- Raised on a `Closed` or `Faulted` core by `step` (70 R150: a model refuses it) and by the run loop, `runOnce`
  (DESIGN CHOICE, log entry 19: the spec says nothing of `run()` there). Safe: nothing is claimed of the request. -/
  | coreEnded
  /-- Raised by `load` for an image longer than 3584 bytes (20_memory R56: a model refuses it). Safe. -/
  | imageTooLong
  /-- Raised by `load` called a second time or after a step (70 R156: a model refuses it). Safe. -/
  | lateLoad
  deriving DecidableEq, Repr

/-- The three outcomes of a step or of an instruction. -/
abbrev Result := Host.Outcome State Fault Refusal

/-- The state right after construction (70 R146, 10_state R35). `pc`, the empty stack and the running status are the
spec's; memory lists nothing (the font and the zeros are what unlisted addresses read as, log entries 4 and 5); the
zeros of the registers, the timers and the framebuffer, the time 0 and the two parameters are DESIGN CHOICE (log
entries 6 to 10). -/
def State.reset : State where
  mem := []
  v := .replicate 16 0
  i := 0
  pc := 0x200
  stack := []
  dt := ⟨0, 0⟩
  st := ⟨0, 0⟩
  status := .running
  fb := .replicate 32 (.replicate 64 false)
  bcdPartial := false
  stackLimit := none
  input := ⟨0, 0, 0, false⟩
  pending := []
  steps := 0
  loaded := false
  out := []

end Sys2Proof.Machine
end

