-- ==== Sys2Proof/Machine/Memory.lean ====
section
/-! DEFINITION. Memory (20_memory R36–R50): what an unlisted address reads as, reading and writing one byte, runs of
bytes, the whole-access check, and the canonical form. -/

namespace Sys2Proof.Machine

/-- The default `FONT` (20_memory R40), glyph by glyph. PRESUMED (log entry 4): the spec supplies it from general
knowledge and leaves `FONT` open. -/
def defaultFont : Vector Byte 80 :=
  #v[0xF0, 0x90, 0x90, 0x90, 0xF0, 0x20, 0x60, 0x20, 0x20, 0x70, 0xF0, 0x10, 0xF0, 0x80, 0xF0,
    0xF0, 0x10, 0xF0, 0x10, 0xF0, 0x90, 0x90, 0xF0, 0x10, 0x10, 0xF0, 0x80, 0xF0, 0x10, 0xF0,
    0xF0, 0x80, 0xF0, 0x90, 0xF0, 0xF0, 0x10, 0x20, 0x40, 0x40, 0xF0, 0x90, 0xF0, 0x90, 0xF0,
    0xF0, 0x90, 0xF0, 0x10, 0xF0, 0xF0, 0x90, 0xF0, 0x90, 0x90, 0xE0, 0x90, 0xE0, 0x90, 0xE0,
    0xF0, 0x80, 0x80, 0x80, 0xF0, 0xE0, 0x90, 0x90, 0x90, 0xE0, 0xF0, 0x80, 0xF0, 0x80, 0xF0,
    0xF0, 0x80, 0xF0, 0x80, 0x80]

/-- What an address reads as that memory does not list: the font's byte in 0x50..0x9F (20_memory R38, R39), 0
elsewhere. DESIGN CHOICE, unsafe (log entry 5): the spec leaves `INIT_MEM` open. -/
def Memory.unlisted (a : Nat) : Byte :=
  if Config.fontBase ≤ a then defaultFont.toList.getD (a - Config.fontBase) 0 else 0

/-- `MemRead(a, 1)` for an address in range (20_memory R44). -/
def Memory.read : Memory → Nat → Byte
  | [], a => Memory.unlisted a
  | (b, w) :: m, a => if a = b then w else Memory.read m a

/-- The cells at other addresses than `a`. -/
def Memory.erase (m : Memory) (a : Nat) : Memory := m.filter fun c => c.1 != a

/-- Insert a cell before the first cell of a higher address. -/
def Memory.insert : Memory → Nat → Byte → Memory
  | [], a, w => [(a, w)]
  | (b, u) :: m, a, w => if a < b then (a, w) :: (b, u) :: m else (b, u) :: Memory.insert m a w

/-- Put a byte at an address in canonical form: the byte an unlisted address reads as is not listed. -/
def Memory.set (m : Memory) (a : Nat) (w : Byte) : Memory :=
  if w = Memory.unlisted a then Memory.erase m a else Memory.insert (Memory.erase m a) a w

/-- `MemWrite(a, 1, w)` (20_memory R45). No address above 0xFFF exists, so nothing is stored there; the accesses that
would reach one are stopped before (`withAccess`) or cut (Fx33). -/
def Memory.write (m : Memory) (a : Nat) (w : Byte) : Memory :=
  if a < Config.memSize then Memory.set m a w else m

/-- `MemWrite` of the bytes of a list at rising addresses from `base` (20_memory R48). -/
def Memory.writeBytes : Memory → Nat → List Byte → Memory
  | m, _, [] => m
  | m, base, w :: ws => Memory.writeBytes (Memory.write m base w) (base + 1) ws

/-- `MemRead` of `k` bytes at rising addresses from `base` (20_memory R48). -/
def Memory.readBytes (m : Memory) (base k : Nat) : List Byte :=
  (List.range k).map fun j => Memory.read m (base + j)

/-- The cells from `lo` on: addresses rising and below 0x1000, none listed with what it would read as unlisted. -/
def Memory.wfFrom : Nat → Memory → Bool
  | _, [] => true
  | lo, (a, w) :: m =>
    decide (lo ≤ a) && decide (a < Config.memSize) && decide (w ≠ Memory.unlisted a) && Memory.wfFrom (a + 1) m

/-- The canonical form of memory. -/
def Memory.wf (m : Memory) : Bool := Memory.wfFrom 0 m

/-- The whole-access check of 20_memory R46: `k` bytes at `base` lie in memory; an access of 0 bytes always does. -/
def accessInRange (base k : Nat) : Bool := k == 0 || decide (base + k ≤ Config.memSize)

/-- The first address above 0xFFF that an access from `base` touches (20_memory R46, 60 R131). -/
def firstOutOfRange (base : Nat) : Nat := max base Config.memSize

end Sys2Proof.Machine
end

