-- ==== Sys2Proof/Machine/Ops.lean ====
section
/-! DEFINITION. The named operations over registers, the program counter, the stack, the outputs and the inputs, the
whole-access check around an access, and raising a fatal error (the core's only exception, 60_exceptions R128). -/

namespace Sys2Proof.Machine

/-- `V[r]` (00_scope R10). -/
def getV (s : State) (r : Reg) : Byte := s.v.get r

/-- `V[r] <- w` (00_scope R10). -/
def setV (s : State) (r : Reg) (w : Byte) : State := { s with v := s.v.set r.val w r.isLt }

/-- The number of VF, `V[15]` (10_state R18). -/
abbrev vf : Reg := 15

/-- `pc <- target`. -/
def setPc (s : State) (target : Word) : State := { s with pc := target }

/-- The fetch advance, `pc <- pc + 2` (30 R57). -/
def advancePc (s : State) : State := { s with pc := s.pc + 2 }

/-- Skip the next instruction if `c` holds (40 R71). -/
def skipIf (c : Bool) (s : State) : State := { s with pc := if c then s.pc + 2 else s.pc }

/-- The fetch address `a` of the instruction being executed: its `pc` is already advanced by 2 (00_scope R13). -/
def fetchAddr (s : State) : Word := s.pc - 2

/-- `I <- w`. -/
def setI (s : State) (w : Nat) : State := { s with i := w }

/-- `push(a)`: append to the end (00_scope R10, 10_state R27). -/
def push (s : State) (a : Word) : State := { s with stack := s.stack ++ [a] }

/-- Whether the stack is at a finite `STACK_LIMIT` (40 R74). -/
def stackFull (s : State) : Bool := s.stackLimit == some s.stack.length

/-- The value `pop()` returns, and the state with it removed; none for an empty stack (00_scope R10). -/
def pop (s : State) : Option (Word × State) :=
  s.stack.getLast?.map (·, { s with stack := s.stack.dropLast })

/-- An output event (60 R140). -/
def emit (e : Event) (s : State) : State := { s with out := s.out ++ [e] }

/-- The state the host finds after a fatal error (60 R128, R136): the status is `Faulted(record)`, nothing else
changes. -/
def enterFaulted (r : FaultRecord) (s : State) : State := { s with status := .faulted r }

/-- `raise E(record)` (60 R128): the step ends with the record and the state the host then finds. -/
def raise {α : Type} (r : FaultRecord) (s : State) : Host.Outcome α Fault Refusal :=
  .fault (.fatal r (enterFaulted r s))

/-- An access of `k` bytes at `base` by the instruction being executed, checked as a whole before `body` makes any
change (20_memory R46). -/
def withAccess (base k : Nat) (s : State) (body : Result) : Result :=
  if accessInRange base k then body else raise (.memoryBounds (fetchAddr s) (firstOutOfRange base)) s

/-- The later of two host times; the host's samples never go back (43 R105, log entry 3). -/
def laterTime (t u : Time) : Time := if t ≤ u then u else t

/-- The inputs the host gives the next step: the oldest it has ready, else a free value (60 R141, log entry 1). -/
def nextInput (s : State) : StepInput := s.pending.headD (Config.freeInput s.steps)

/-- Sample the inputs of a step (60 R141): once per step, the time never going back (43 R105). -/
def sampleInput (s : State) : State :=
  { s with
    input := { nextInput s with now := laterTime s.input.now (nextInput s).now }
    pending := s.pending.tail
    steps := s.steps + 1 }

/-- `Now()` (43 R105). -/
def now (s : State) : Time := s.input.now

/-- `RandomByte()` (41 R94). -/
def randomByte (s : State) : Byte := s.input.random

/-- `Control.isPressed(k)` (44 R120). -/
def isPressed (s : State) (k : Byte) : Bool := s.input.keys.getLsbD k.toNat

end Sys2Proof.Machine
end

