-- ==== Sys2Proof/Machine/Flags.lean ====
section
/-! DEFINITION. The flag computations (10_state R18, 41 R81). VF is the only flag register. -/

namespace Sys2Proof.Machine

/-- A flag as a register value: 0 or 1 (10_state R18). -/
def flagByte (c : Bool) : Byte := if c then 1 else 0

/-- `VF <- c ? 1 : 0` (10_state R18). -/
def setFlag (s : State) (c : Bool) : State := setV s vf (flagByte c)

/-- The carry of 8xy4: `sum > 255` (41 R88). -/
def carryFlag (a b : Byte) : Bool := decide (a.toNat + b.toNat > 255)

/-- The flag of 8xy5 and 8xy7: the minuend strictly greater than the subtrahend (41 R81, R89, R91). -/
def greaterFlag (a b : Byte) : Bool := decide (a.toNat > b.toNat)

/-- The bit that 8xy6 shifts out (41 R90). -/
def lowBitFlag (a : Byte) : Bool := a.getLsbD 0

/-- The bit that 8xyE shifts out (41 R92). -/
def highBitFlag (a : Byte) : Bool := a.getLsbD 7

end Sys2Proof.Machine
end

