-- ==== Sys2Proof/Machine/Alu.lean ====
section
/-! DEFINITION. Register arithmetic and logic (41_alu). The statements of a rule run in the order written, and each reads
the state the ones before it left (00_scope R11, log entry 13). -/

namespace Sys2Proof.Machine

/-- 6xnn (41 R82). -/
def execLdImm (x : Reg) (nn : Byte) (s : State) : Result := .next (setV s x nn)

/-- 7xnn (41 R83): wraps, no flag. -/
def execAddImm (x : Reg) (nn : Byte) (s : State) : Result := .next (setV s x (getV s x + nn))

/-- 8xy0 (41 R84). -/
def execLdReg (x y : Reg) (s : State) : Result := .next (setV s x (getV s y))

/-- 8xy1 (41 R85). -/
def execOr (x y : Reg) (s : State) : Result := .next (setV s x (getV s x ||| getV s y))

/-- 8xy2 (41 R86). -/
def execAnd (x y : Reg) (s : State) : Result := .next (setV s x (getV s x &&& getV s y))

/-- 8xy3 (41 R87). -/
def execXor (x y : Reg) (s : State) : Result := .next (setV s x (getV s x ^^^ getV s y))

/-- 8xy4 (41 R88): the sum is read before any write. -/
def execAddReg (x y : Reg) (s : State) : Result :=
  let sum := getV s x + getV s y
  .next (setV (setFlag s (carryFlag (getV s x) (getV s y))) x sum)

/-- 8xy5 (41 R89): the subtraction reads the registers after the VF write. -/
def execSub (x y : Reg) (s : State) : Result :=
  let s' := setFlag s (greaterFlag (getV s x) (getV s y))
  .next (setV s' x (getV s' x - getV s' y))

/-- 8xy6 (41 R90): in place, `y` is ignored; the shift reads `V[x]` after the VF write. -/
def execShr (x _y : Reg) (s : State) : Result :=
  let s' := setFlag s (lowBitFlag (getV s x))
  .next (setV s' x (getV s' x >>> 1))

/-- 8xy7 (41 R91): the subtraction reads the registers after the VF write. -/
def execSubn (x y : Reg) (s : State) : Result :=
  let s' := setFlag s (greaterFlag (getV s y) (getV s x))
  .next (setV s' x (getV s' y - getV s' x))

/-- 8xyE (41 R92): in place, `y` is ignored; the shift reads `V[x]` after the VF write. -/
def execShl (x _y : Reg) (s : State) : Result :=
  let s' := setFlag s (highBitFlag (getV s x))
  .next (setV s' x (getV s' x <<< 1))

/-- Cxnn (41 R93, R94). -/
def execRnd (x : Reg) (nn : Byte) (s : State) : Result := .next (setV s x (randomByte s &&& nn))

end Sys2Proof.Machine
end

