-- ==== Sys2Proof/Machine/Operands.lean ====
section
/-! DEFINITION. The operand forms (30_encoding R60, 42 R104): immediates, which are zero-extended, and what the memory
instructions read and write at `I` plus an offset. -/

namespace Sys2Proof.Machine

/-- `nnn` as a value of `pc` (30 R60, 40 R79). -/
def pcOperand (nnn : Addr) : Word := nnn.setWidth 16

/-- `nnn` as a value of `I` (30 R60, 42 R96). -/
def indexOperand (nnn : Addr) : Nat := nnn.toNat

/-- The address of the glyph that a register's value names; the value is not masked (42 R98). -/
def glyphAddr (w : Byte) : Nat := Config.fontBase + w.toNat * 5

/-- The decimal digits of a byte: hundreds, tens, units (42 R99). -/
def bcdDigits (w : Byte) : List Byte :=
  [.ofNat 8 (w.toNat / 100), .ofNat 8 (w.toNat / 10 % 10), .ofNat 8 (w.toNat % 10)]

/-- `BcdInRange(I)` (42 R100). -/
def bcdInRange (i : Nat) : Bool := decide (i + 2 ≤ 0xFFF)

/-- The digits of Fx33 whose addresses lie in memory (42 R100). -/
def bcdFitting (i : Nat) (w : Byte) : List Byte := (bcdDigits w).take (Config.memSize - i)

/-- The registers V0..Vx in order (42 R101). -/
def regsUpTo (s : State) (x : Reg) : List Byte := s.v.toList.take (x.val + 1)

/-- Load V0..Vx from memory at `I` (42 R102). -/
def loadRegs (s : State) (x : Reg) : State :=
  { s with v := Vector.ofFn fun r : Reg => if r ≤ x then Memory.read s.mem (s.i + r.val) else getV s r }

/-- The sprite of Dxyn: `n` rows at `I` (44 R123). -/
def spriteRows (s : State) (n : Nibble) : List Byte := Memory.readBytes s.mem s.i n.toNat

end Sys2Proof.Machine
end

