-- ==== Sys2Proof/Machine/ControlFlow.lean ====
section
/-! DEFINITION. Control flow and skips (40_control_flow). -/

namespace Sys2Proof.Machine

/-- 00EE (40 R72). -/
def execRet (s : State) : Result :=
  match pop s with
  | none => raise (.stackUnderflow (fetchAddr s)) s
  | some (a, s') => .next (setPc s' a)

/-- 1nnn (40 R73). -/
def execJp (nnn : Addr) (s : State) : Result := .next (setPc s (pcOperand nnn))

/-- 2nnn (40 R74): the pushed value is the advanced `pc`. -/
def execCall (nnn : Addr) (s : State) : Result :=
  if stackFull s then raise (.stackOverflow (fetchAddr s)) s else .next (setPc (push s s.pc) (pcOperand nnn))

/-- 3xnn (40 R75). -/
def execSeImm (x : Reg) (nn : Byte) (s : State) : Result := .next (skipIf (getV s x == nn) s)

/-- 4xnn (40 R76). -/
def execSneImm (x : Reg) (nn : Byte) (s : State) : Result := .next (skipIf (getV s x != nn) s)

/-- 5xy0 (40 R77). -/
def execSeReg (x y : Reg) (s : State) : Result := .next (skipIf (getV s x == getV s y) s)

/-- 9xy0 (40 R78). -/
def execSneReg (x y : Reg) (s : State) : Result := .next (skipIf (getV s x != getV s y) s)

end Sys2Proof.Machine
end

