-- ==== Sys2Proof/Machine/Display.lean ====
section
/-! DEFINITION. The Display's contract (44_display_input R115–R118). -/

namespace Sys2Proof.Machine

/-- The pixel in column `px` of row `py` (44 R118). -/
def pixel (fb : Framebuffer) (px : Fin 64) (py : Fin 32) : Bool := (fb.get py).get px

/-- `FB[py][px] <- p`. -/
def setPixel (fb : Framebuffer) (px : Fin 64) (py : Fin 32) (p : Bool) : Framebuffer :=
  fb.set py.val ((fb.get py).set px.val p px.isLt) py.isLt

/-- `clear()` (44 R116). -/
def clearScreen : Framebuffer := .replicate 32 (.replicate 64 false)

/-- A draw under way: the framebuffer, and whether a pixel has gone from 1 to 0. -/
structure Draw where
  fb       : Framebuffer
  collided : Bool
  deriving DecidableEq, Repr

/-- A sprite bit of 1 meets a pixel: it toggles, and 1 → 0 is a collision (44 R115). -/
def togglePixel (d : Draw) (px : Fin 64) (py : Fin 32) : Draw :=
  { fb := setPixel d.fb px py (!pixel d.fb px py), collided := d.collided || pixel d.fb px py }

/-- The bits `xo` of one row at `(x0, py)`; the row stops at the right edge (44 R115; "exceeds" is `≥`, log entry 16). -/
def drawBits (bits : Byte) (x0 : Nat) (py : Fin 32) : List Nat → Draw → Draw
  | [], d => d
  | xo :: rest, d =>
    if h : x0 + xo < 64 then
      drawBits bits x0 py rest (if bits.getMsbD xo then togglePixel d ⟨x0 + xo, h⟩ py else d)
    else d

/-- The rows of a sprite from screen row `y` on; the draw stops at the bottom edge (44 R115). -/
def drawRows (x0 : Nat) : List Byte → Nat → Draw → Draw
  | [], _, d => d
  | bits :: rest, y, d =>
    if h : y < 32 then drawRows x0 rest (y + 1) (drawBits bits x0 ⟨y, h⟩ (List.range 8) d) else d

/-- `draw(x, y, rows)` (44 R115): the coordinates wrap once, on entry. -/
def drawSprite (fb : Framebuffer) (x y : Byte) (rows : List Byte) : Draw :=
  drawRows (x.toNat % Config.screenW) rows (y.toNat % Config.screenH) ⟨fb, false⟩

end Sys2Proof.Machine
end

