-- ==== Sys2Proof/Machine/DisplayInput.lean ====
section
/-! DEFINITION. Display and input instructions (44_display_input). -/

namespace Sys2Proof.Machine

/-- 00E0 (44 R122): `show()` is not called. -/
def execCls (s : State) : Result := .next (emit .displayClear { s with fb := clearScreen })

/-- The draw of Dxyn: the coordinates are read before VF is written (44 R123). -/
def drawAt (x y : Reg) (n : Nibble) (s : State) : Draw := drawSprite s.fb (getV s x) (getV s y) (spriteRows s n)

/-- Dxyn (44 R123). -/
def execDrw (x y : Reg) (n : Nibble) (s : State) : Result :=
  let d := drawAt x y n s
  withAccess s.i n.toNat s
    (.next (emit .displayShow (setFlag
      (emit (.displayDraw (getV s x) (getV s y) (spriteRows s n) d.collided) { s with fb := d.fb }) d.collided)))

/-- A key instruction: the key number is checked before `isPressed` is called (44 R126), then skip if `take` holds of
the answer. -/
def keySkip (x : Reg) (take : Bool → Bool) (s : State) : Result :=
  let k := getV s x
  if k.toNat > 15 then raise (.keyOutOfRange (fetchAddr s) k) s
  else .next (skipIf (take (isPressed s k)) (emit (.keyQuery k (isPressed s k)) s))

/-- Ex9E (44 R124). -/
def execSkp (x : Reg) (s : State) : Result := keySkip x id s

/-- ExA1 (44 R125). -/
def execSknp (x : Reg) (s : State) : Result := keySkip x not s

end Sys2Proof.Machine
end

