-- ==== Sys2Proof/Machine/IndexMemory.lean ====
section
/-! DEFINITION. Index register and memory instructions (42_index_memory). None of the memory instructions changes `I`
(R103). -/

namespace Sys2Proof.Machine

/-- Annn (42 R96). -/
def execLdI (nnn : Addr) (s : State) : Result := .next (setI s (indexOperand nnn))

/-- Fx1E (42 R97): no wrap, no clamp, no flag. -/
def execAddI (x : Reg) (s : State) : Result := .next (setI s (s.i + (getV s x).toNat))

/-- Fx29 (42 R98). -/
def execLdF (x : Reg) (s : State) : Result := .next (setI s (glyphAddr (getV s x)))

/-- Fx33 (42 R99, R100): out of range it reports and goes on (60 R133), writing the digits that fit only under
`BCD_PARTIAL`. -/
def execLdB (x : Reg) (s : State) : Result :=
  if bcdInRange s.i then .next { s with mem := Memory.writeBytes s.mem s.i (bcdDigits (getV s x)) }
  else if s.bcdPartial then
    .next (emit (.bcdRange (fetchAddr s) s.i)
      { s with mem := Memory.writeBytes s.mem s.i (bcdFitting s.i (getV s x)) })
  else .next (emit (.bcdRange (fetchAddr s) s.i) s)

/-- Fx55 (42 R101). -/
def execLdMemVx (x : Reg) (s : State) : Result :=
  withAccess s.i (x.val + 1) s (.next { s with mem := Memory.writeBytes s.mem s.i (regsUpTo s x) })

/-- Fx65 (42 R102). -/
def execLdVxMem (x : Reg) (s : State) : Result := withAccess s.i (x.val + 1) s (.next (loadRegs s x))

end Sys2Proof.Machine
end

