-- ==== Sys2Proof/Machine/Timers.lean ====
section
/-! DEFINITION. The timer model and the timer instructions (43_timers). -/

namespace Sys2Proof.Machine

/-- `TimerValue(S, T, t)` (43 R106). -/
def timerValue (t : Timer) (time : Time) : Int :=
  max 0 ((t.stored.toNat : Int) - (Config.timerRate * (time - t.start)).floor)

/-- The value a timer reads as a register's value. It is `timerValue` itself whenever the time is not before the start
(43 R106); an earlier time is no run of the machine (70 R156, log entry 3). -/
def timerByte (t : Timer) (time : Time) : Byte := .ofInt 8 (timerValue t time)

/-- A timer set at a time (43 R110, R111). -/
def startTimer (w : Byte) (time : Time) : Timer := ⟨w, time⟩

/-- `SoundValue(t)`: the sound timer's value, which the host may sample (43 R112). -/
def soundValue (s : State) (time : Time) : Int := timerValue s.st time

/-- Fx07 (43 R109). -/
def execLdVxDt (x : Reg) (s : State) : Result := .next (setV s x (timerByte s.dt (now s)))

/-- Fx15 (43 R110). -/
def execLdDtVx (x : Reg) (s : State) : Result := .next { s with dt := startTimer (getV s x) (now s) }

/-- Fx18 (43 R111). -/
def execLdStVx (x : Reg) (s : State) : Result := .next { s with st := startTimer (getV s x) (now s) }

end Sys2Proof.Machine
end

