-- ==== Sys2Proof/Syntax.lean ====
section
/-! DEFINITION. The 32 instructions of 30_encoding R61, one constructor per row of spec/opcode_table.json, in the
table's order. Operands are typed by their field's width (R59, R60), so no operand is out of its field's range. -/

namespace Sys2Proof

/-- The instructions (30_encoding R61, R62; the names are R69's). -/
inductive Instr where
  /-- 00E0 (44 R122). -/
  | cls
  /-- 00EE (40 R72). -/
  | ret
  /-- 1nnn (40 R73). -/
  | jp (nnn : Addr)
  /-- 2nnn (40 R74). -/
  | call (nnn : Addr)
  /-- 3xnn (40 R75). -/
  | seImm (x : Reg) (nn : Byte)
  /-- 4xnn (40 R76). -/
  | sneImm (x : Reg) (nn : Byte)
  /-- 5xy0 (40 R77). -/
  | seReg (x y : Reg)
  /-- 6xnn (41 R82). -/
  | ldImm (x : Reg) (nn : Byte)
  /-- 7xnn (41 R83). -/
  | addImm (x : Reg) (nn : Byte)
  /-- 8xy0 (41 R84). -/
  | ldReg (x y : Reg)
  /-- 8xy1 (41 R85). -/
  | or (x y : Reg)
  /-- 8xy2 (41 R86). -/
  | and (x y : Reg)
  /-- 8xy3 (41 R87). -/
  | xor (x y : Reg)
  /-- 8xy4 (41 R88). -/
  | addReg (x y : Reg)
  /-- 8xy5 (41 R89). -/
  | sub (x y : Reg)
  /-- 8xy6 (41 R90); `y` is a field of the word that the instruction ignores (30 R67). -/
  | shr (x y : Reg)
  /-- 8xy7 (41 R91). -/
  | subn (x y : Reg)
  /-- 8xyE (41 R92); `y` is a field of the word that the instruction ignores (30 R67). -/
  | shl (x y : Reg)
  /-- 9xy0 (40 R78). -/
  | sneReg (x y : Reg)
  /-- Annn (42 R96). -/
  | ldI (nnn : Addr)
  /-- Cxnn (41 R93). -/
  | rnd (x : Reg) (nn : Byte)
  /-- Dxyn (44 R123). -/
  | drw (x y : Reg) (n : Nibble)
  /-- Ex9E (44 R124). -/
  | skp (x : Reg)
  /-- ExA1 (44 R125). -/
  | sknp (x : Reg)
  /-- Fx07 (43 R109). -/
  | ldVxDt (x : Reg)
  /-- Fx15 (43 R110). -/
  | ldDtVx (x : Reg)
  /-- Fx18 (43 R111). -/
  | ldStVx (x : Reg)
  /-- Fx1E (42 R97). -/
  | addI (x : Reg)
  /-- Fx29 (42 R98). -/
  | ldF (x : Reg)
  /-- Fx33 (42 R99). -/
  | ldB (x : Reg)
  /-- Fx55 (42 R101). -/
  | ldMemVx (x : Reg)
  /-- Fx65 (42 R102). -/
  | ldVxMem (x : Reg)
  deriving DecidableEq, Repr

end Sys2Proof
end

