-- ==== Sys2Proof/Decode.lean ====
section
/-! DEFINITION. The fields of an instruction word (30_encoding R59), the opcode rows (R61), decoding (R62) and encoding. -/

namespace Sys2Proof

/-- `n1 = w[15:12]` (R59). -/
def fieldN1 (w : Word) : Nibble := w.extractLsb' 12 4

/-- `n2 = w[11:8]` (R59). -/
def fieldN2 (w : Word) : Nibble := w.extractLsb' 8 4

/-- `n3 = w[7:4]` (R59). -/
def fieldN3 (w : Word) : Nibble := w.extractLsb' 4 4

/-- `n4 = n = w[3:0]` (R59). -/
def fieldN4 (w : Word) : Nibble := w.extractLsb' 0 4

/-- The register number `x = n2` (R59). -/
def fieldX (w : Word) : Reg := (fieldN2 w).toFin

/-- The register number `y = n3` (R59). -/
def fieldY (w : Word) : Reg := (fieldN3 w).toFin

/-- `nn = w[7:0]` (R59). -/
def fieldNN (w : Word) : Byte := w.extractLsb' 0 8

/-- `nnn = w[11:0]` (R59). -/
def fieldNNN (w : Word) : Addr := w.extractLsb' 0 12

/-- Why bytes are no instruction. -/
inductive DecodeError where
  /-- The word is none of the 32 patterns (R64); the failing nibble tuple. -/
  | unknownOpcode (n1 n2 n3 n4 : Nibble)
  /-- Fewer than the 2 bytes an instruction has (R68). -/
  | truncated
  deriving DecidableEq, Repr

/-- The illegal outcome of `decode` for the word `w` (R62, R64). -/
def illegal (w : Word) : Except DecodeError Instr :=
  .error (.unknownOpcode (fieldN1 w) (fieldN2 w) (fieldN3 w) (fieldN4 w))

/-- R62's case on `n4` under `n1 = 8`. -/
def decode8 (w : Word) : Except DecodeError Instr :=
  match fieldN4 w with
  | 0x0 => .ok (.ldReg (fieldX w) (fieldY w))
  | 0x1 => .ok (.or (fieldX w) (fieldY w))
  | 0x2 => .ok (.and (fieldX w) (fieldY w))
  | 0x3 => .ok (.xor (fieldX w) (fieldY w))
  | 0x4 => .ok (.addReg (fieldX w) (fieldY w))
  | 0x5 => .ok (.sub (fieldX w) (fieldY w))
  | 0x6 => .ok (.shr (fieldX w) (fieldY w))
  | 0x7 => .ok (.subn (fieldX w) (fieldY w))
  | 0xE => .ok (.shl (fieldX w) (fieldY w))
  | _ => illegal w

/-- R62's case on `nn` under `n1 = 0xF`. -/
def decodeF (w : Word) : Except DecodeError Instr :=
  match fieldNN w with
  | 0x07 => .ok (.ldVxDt (fieldX w))
  | 0x15 => .ok (.ldDtVx (fieldX w))
  | 0x18 => .ok (.ldStVx (fieldX w))
  | 0x1E => .ok (.addI (fieldX w))
  | 0x29 => .ok (.ldF (fieldX w))
  | 0x33 => .ok (.ldB (fieldX w))
  | 0x55 => .ok (.ldMemVx (fieldX w))
  | 0x65 => .ok (.ldVxMem (fieldX w))
  | _ => illegal w

/-- `decode` of R62: total on every word. -/
def decode (w : Word) : Except DecodeError Instr :=
  match fieldN1 w with
  | 0x0 => if w = 0x00E0 then .ok .cls else if w = 0x00EE then .ok .ret else illegal w
  | 0x1 => .ok (.jp (fieldNNN w))
  | 0x2 => .ok (.call (fieldNNN w))
  | 0x3 => .ok (.seImm (fieldX w) (fieldNN w))
  | 0x4 => .ok (.sneImm (fieldX w) (fieldNN w))
  | 0x5 => if fieldN4 w = 0 then .ok (.seReg (fieldX w) (fieldY w)) else illegal w
  | 0x6 => .ok (.ldImm (fieldX w) (fieldNN w))
  | 0x7 => .ok (.addImm (fieldX w) (fieldNN w))
  | 0x8 => decode8 w
  | 0x9 => if fieldN4 w = 0 then .ok (.sneReg (fieldX w) (fieldY w)) else illegal w
  | 0xA => .ok (.ldI (fieldNNN w))
  | 0xC => .ok (.rnd (fieldX w) (fieldNN w))
  | 0xD => .ok (.drw (fieldX w) (fieldY w) (fieldN4 w))
  | 0xE =>
    if fieldNN w = 0x9E then .ok (.skp (fieldX w))
    else if fieldNN w = 0xA1 then .ok (.sknp (fieldX w)) else illegal w
  | 0xF => decodeF w
  | _ => illegal w

/-- The word whose high byte lies at the lower address (20_memory R47). -/
def bigEndian (hi lo : Byte) : Word := hi ++ lo

/-- The high byte of a word: the one at the lower address (20_memory R47). -/
def highByte (w : Word) : Byte := w.extractLsb' 8 8

/-- The low byte of a word: the one at the higher address (20_memory R47). -/
def lowByte (w : Word) : Byte := w.extractLsb' 0 8

/-- Decoding of bytes: the first two are the instruction (R68), the rest is left over. -/
def decodeBytes : List Byte → Except DecodeError (Instr × List Byte)
  | hi :: lo :: rest => (decode (bigEndian hi lo)).map (·, rest)
  | _ => .error .truncated

/-- A word made of a family nibble and a 12-bit address (R59). -/
def wordNNN (n1 : Nat) (nnn : Addr) : Word := .ofNat 16 (n1 * 0x1000 + nnn.toNat)

/-- A word made of a family nibble, a register number and a low byte (R59). -/
def wordXNN (n1 : Nat) (x : Reg) (nn : Byte) : Word := .ofNat 16 (n1 * 0x1000 + x.val * 0x100 + nn.toNat)

/-- A word made of a family nibble, two register numbers and a last nibble (R59). -/
def wordXYN (n1 : Nat) (x y : Reg) (n : Nibble) : Word :=
  .ofNat 16 (n1 * 0x1000 + x.val * 0x100 + y.val * 0x10 + n.toNat)

/-- The word of an instruction, from the patterns of R61. -/
def encode : Instr → Word
  | .cls => 0x00E0
  | .ret => 0x00EE
  | .jp nnn => wordNNN 0x1 nnn
  | .call nnn => wordNNN 0x2 nnn
  | .seImm x nn => wordXNN 0x3 x nn
  | .sneImm x nn => wordXNN 0x4 x nn
  | .seReg x y => wordXYN 0x5 x y 0x0
  | .ldImm x nn => wordXNN 0x6 x nn
  | .addImm x nn => wordXNN 0x7 x nn
  | .ldReg x y => wordXYN 0x8 x y 0x0
  | .or x y => wordXYN 0x8 x y 0x1
  | .and x y => wordXYN 0x8 x y 0x2
  | .xor x y => wordXYN 0x8 x y 0x3
  | .addReg x y => wordXYN 0x8 x y 0x4
  | .sub x y => wordXYN 0x8 x y 0x5
  | .shr x y => wordXYN 0x8 x y 0x6
  | .subn x y => wordXYN 0x8 x y 0x7
  | .shl x y => wordXYN 0x8 x y 0xE
  | .sneReg x y => wordXYN 0x9 x y 0x0
  | .ldI nnn => wordNNN 0xA nnn
  | .rnd x nn => wordXNN 0xC x nn
  | .drw x y n => wordXYN 0xD x y n
  | .skp x => wordXNN 0xE x 0x9E
  | .sknp x => wordXNN 0xE x 0xA1
  | .ldVxDt x => wordXNN 0xF x 0x07
  | .ldDtVx x => wordXNN 0xF x 0x15
  | .ldStVx x => wordXNN 0xF x 0x18
  | .addI x => wordXNN 0xF x 0x1E
  | .ldF x => wordXNN 0xF x 0x29
  | .ldB x => wordXNN 0xF x 0x33
  | .ldMemVx x => wordXNN 0xF x 0x55
  | .ldVxMem x => wordXNN 0xF x 0x65

/-- The bytes of an instruction in memory, the lowest address first (20_memory R47). -/
def encodeBytes (i : Instr) : List Byte := [highByte (encode i), lowByte (encode i)]

/-- One row of R61: a word `w` is the row's instruction iff `w &&& mask = pattern`. -/
structure Row where
  pattern : Word
  mask    : Word
  deriving DecidableEq, Repr

/-- The row of R61 an instruction belongs to. -/
def row : Instr → Row
  | .cls => ⟨0x00E0, 0xFFFF⟩
  | .ret => ⟨0x00EE, 0xFFFF⟩
  | .jp _ => ⟨0x1000, 0xF000⟩
  | .call _ => ⟨0x2000, 0xF000⟩
  | .seImm _ _ => ⟨0x3000, 0xF000⟩
  | .sneImm _ _ => ⟨0x4000, 0xF000⟩
  | .seReg _ _ => ⟨0x5000, 0xF00F⟩
  | .ldImm _ _ => ⟨0x6000, 0xF000⟩
  | .addImm _ _ => ⟨0x7000, 0xF000⟩
  | .ldReg _ _ => ⟨0x8000, 0xF00F⟩
  | .or _ _ => ⟨0x8001, 0xF00F⟩
  | .and _ _ => ⟨0x8002, 0xF00F⟩
  | .xor _ _ => ⟨0x8003, 0xF00F⟩
  | .addReg _ _ => ⟨0x8004, 0xF00F⟩
  | .sub _ _ => ⟨0x8005, 0xF00F⟩
  | .shr _ _ => ⟨0x8006, 0xF00F⟩
  | .subn _ _ => ⟨0x8007, 0xF00F⟩
  | .shl _ _ => ⟨0x800E, 0xF00F⟩
  | .sneReg _ _ => ⟨0x9000, 0xF00F⟩
  | .ldI _ => ⟨0xA000, 0xF000⟩
  | .rnd _ _ => ⟨0xC000, 0xF000⟩
  | .drw _ _ _ => ⟨0xD000, 0xF000⟩
  | .skp _ => ⟨0xE09E, 0xF0FF⟩
  | .sknp _ => ⟨0xE0A1, 0xF0FF⟩
  | .ldVxDt _ => ⟨0xF007, 0xF0FF⟩
  | .ldDtVx _ => ⟨0xF015, 0xF0FF⟩
  | .ldStVx _ => ⟨0xF018, 0xF0FF⟩
  | .addI _ => ⟨0xF01E, 0xF0FF⟩
  | .ldF _ => ⟨0xF029, 0xF0FF⟩
  | .ldB _ => ⟨0xF033, 0xF0FF⟩
  | .ldMemVx _ => ⟨0xF055, 0xF0FF⟩
  | .ldVxMem _ => ⟨0xF065, 0xF0FF⟩

/-- The 32 rows of R61 in the table's order. -/
def rows : List Row :=
  [⟨0x00E0, 0xFFFF⟩, ⟨0x00EE, 0xFFFF⟩, ⟨0x1000, 0xF000⟩, ⟨0x2000, 0xF000⟩, ⟨0x3000, 0xF000⟩, ⟨0x4000, 0xF000⟩,
    ⟨0x5000, 0xF00F⟩, ⟨0x6000, 0xF000⟩, ⟨0x7000, 0xF000⟩] ++
  [⟨0x8000, 0xF00F⟩, ⟨0x8001, 0xF00F⟩, ⟨0x8002, 0xF00F⟩, ⟨0x8003, 0xF00F⟩, ⟨0x8004, 0xF00F⟩, ⟨0x8005, 0xF00F⟩,
    ⟨0x8006, 0xF00F⟩, ⟨0x8007, 0xF00F⟩, ⟨0x800E, 0xF00F⟩] ++
  [⟨0x9000, 0xF00F⟩, ⟨0xA000, 0xF000⟩, ⟨0xC000, 0xF000⟩, ⟨0xD000, 0xF000⟩, ⟨0xE09E, 0xF0FF⟩, ⟨0xE0A1, 0xF0FF⟩] ++
  [⟨0xF007, 0xF0FF⟩, ⟨0xF015, 0xF0FF⟩, ⟨0xF018, 0xF0FF⟩, ⟨0xF01E, 0xF0FF⟩, ⟨0xF029, 0xF0FF⟩, ⟨0xF033, 0xF0FF⟩,
    ⟨0xF055, 0xF0FF⟩, ⟨0xF065, 0xF0FF⟩]

/-- A word matches a row of R61. -/
def Row.matches (r : Row) (w : Word) : Bool := w &&& r.mask == r.pattern

/-- The bytes of the instruction whose first `nbits` bits are `w` in the opcode table's numbering (bit 0 the least
significant bit of the word), every higher bit 0, as memory holds them (20_memory R47). -/
def tableBytes (nbits w : Nat) : List Byte :=
  let word : Word := .ofNat 16 (w % 2 ^ nbits)
  [highByte word, lowByte word]

/-- The instruction that `decodeBytes` reads from a word of the opcode table; none where it refuses. -/
def decodeTableWord (nbits w : Nat) : Option Instr :=
  match decodeBytes (tableBytes nbits w) with
  | .ok (i, _) => some i
  | .error _ => none

end Sys2Proof
end

