-- ==== Sys2Proof/Machine/Fetch.lean ====
section
/-! DEFINITION. The part of a step before the execute phase (30_encoding R57): the status check, sampling the inputs,
fetch, advance and decode, in the order of 60_exceptions R135. -/

namespace Sys2Proof.Machine

/-- The word at `pc` (20_memory R47). -/
def fetchWord (s : State) : Word :=
  bigEndian (Memory.read s.mem s.pc.toNat) (Memory.read s.mem (s.pc.toNat + 1))

/-- The record of `UnknownOpcode` for a word fetched at `a` (60 R129). -/
def unknownOpcode (w a : Word) : FaultRecord :=
  .unknownOpcode (fieldN1 w) (fieldN2 w) (fieldN3 w) (fieldN4 w) a (a + 2)

/-- Fetch two bytes at `pc`, advance `pc` by 2, decode (30 R57). A fetch fault leaves `pc` at the fetch address; an
illegal word is found with `pc` already advanced (60 R136). -/
def fetchDecode (s : State) : Host.Outcome (Instr × State) Fault Refusal :=
  if accessInRange s.pc.toNat 2 then
    match decode (fetchWord s) with
    | .ok i => .next (i, advancePc s)
    | .error _ => raise (unknownOpcode (fetchWord s) s.pc) (advancePc s)
  else raise (.memoryBounds s.pc (firstOutOfRange s.pc.toNat)) s

/-- Begin a step: only a `Running` core takes one (10_state R32); a model refuses it otherwise (70 R150). -/
def beginStep (s : State) : Host.Outcome (Instr × State) Fault Refusal :=
  match s.status with
  | .running => fetchDecode (sampleInput s)
  | .closed => .refused .coreEnded
  | .faulted _ => .refused .coreEnded

/-- The state with a word stored at `pc`, the high byte first (20_memory R47). -/
def placeWord (s : State) (w : Word) : State :=
  { s with mem := Memory.writeBytes s.mem s.pc.toNat [highByte w, lowByte w] }

end Sys2Proof.Machine
end

