-- ==== Sys2Proof/Machine/Step.lean ====
section
/-! DEFINITION. One step: the core's `step()` (30_encoding R57, 70 R150), which does not call `isClosed()`. -/

namespace Sys2Proof.Machine

/-- `step()` (30 R57): fetch, advance, decode, execute one instruction to completion (R58). -/
def step (s : State) : Host.Outcome State Fault Refusal :=
  match beginStep s with
  | .next (i, s') => exec i s'
  | .fault f => .fault f
  | .refused r => .refused r

/-- The state with the instruction whose bits are `w` (in the opcode table's numbering, the bits above `nbits` zero)
stored where `step` fetches its next instruction. -/
def State.withFetchWord (s : State) (nbits w : Nat) : State := placeWord s (.ofNat 16 (w % 2 ^ nbits))

end Sys2Proof.Machine
end

