-- ==== Sys2Proof/WellFormed.lean ====
section
/-! DEFINITION. The checks on what comes from outside the machine: an instruction word (30_encoding R64), a program
image (20_memory R41, R56) and the launch parameters (10_state R35). `Instr` itself needs none: each operand's type is
its field's range (30_encoding R60), so every value of `Instr` is well formed. -/

namespace Sys2Proof

/-- The table of R64, read literally: the words that are illegal encodings. It is written apart from `decode`. -/
def WellFormed.illegalWord (w : Word) : Bool :=
  let w := w.toNat
  match w / 0x1000 with
  | 0x0 => w != 0x00E0 && w != 0x00EE
  | 0x5 => w % 0x10 != 0
  | 0x8 => [0x8, 0x9, 0xA, 0xB, 0xC, 0xD, 0xF].contains (w % 0x10)
  | 0x9 => w % 0x10 != 0
  | 0xB => true
  | 0xE => !([0x9E, 0xA1].contains (w % 0x100))
  | 0xF => !([0x07, 0x15, 0x18, 0x1E, 0x29, 0x33, 0x55, 0x65].contains (w % 0x100))
  | _ => false

/-- A word that is an instruction (R64, R66). -/
def WellFormed.word (w : Word) : Bool := !WellFormed.illegalWord w

/-- A program image that fits the program area (20_memory R41). -/
def WellFormed.image (bytes : List Byte) : Bool := bytes.length ≤ Config.maxProgram

/-- `INIT_MEM` lists no more bytes than memory has (20_memory R36). -/
def WellFormed.launchMem (l : Launch) : Bool := l.initMem.length ≤ Config.memSize

/-- The host time is non-negative (43 R105). -/
def WellFormed.launchTime (l : Launch) : Bool := decide ((0 : Time) ≤ l.startTime)

/-- Launch parameters the spec allows. -/
def WellFormed.launch (l : Launch) : Bool := WellFormed.launchMem l && WellFormed.launchTime l

end Sys2Proof
end

