-- ==== Sys2Proof/Machine/Session.lean ====
section
/-! DEFINITION. The host's operations on the core (60_exceptions R140, 70_reset_and_hazards): construction with any
launch values, `load`, the run loop, `updateTimers`. -/

namespace Sys2Proof.Machine

/-- Construction (70 R146) with launch values (10_state R35): `INIT_MEM` first, then the font at 0x50..0x9F. -/
def launch (l : Launch) : State where
  mem := Memory.writeBytes (Memory.writeBytes [] 0 l.initMem) Config.fontBase l.font.toList
  v := l.initV
  i := l.initI
  pc := 0x200
  stack := []
  dt := ⟨l.initDT, l.startTime⟩
  st := ⟨l.initST, l.startTime⟩
  status := .running
  fb := l.initFB
  bcdPartial := l.bcdPartial
  stackLimit := l.stackLimit
  input := ⟨l.startTime, 0, 0, false⟩
  pending := l.pending
  steps := 0
  loaded := false
  out := []

/-- The launch values that `State.reset` stands for (log entries 4 to 10). -/
def referenceLaunch : Launch where
  initV := .replicate 16 0
  initI := 0
  initMem := []
  initDT := 0
  initST := 0
  startTime := 0
  initFB := clearScreen
  font := defaultFont
  bcdPartial := false
  stackLimit := none
  pending := []

/-- `load(bytes)` (20_memory R56): once and before the first step (70 R156), at most 3584 bytes (R41). -/
def load (bytes : List Byte) (s : State) : Result :=
  if s.loaded || s.steps != 0 then .refused .lateLoad
  else if WellFormed.image bytes then
    .next { s with mem := Memory.writeBytes s.mem Config.programBase bytes, loaded := true }
  else .refused .imageTooLong

/-- One turn of the loop of `run()` (70 R149): the close check, then a step. The answer of `isClosed()` is the one the
host gives with the coming step's inputs (log entry 18). The sleep has no effect (60 R145). DESIGN CHOICE, safe (log
entry 19): on a `Closed` or `Faulted` core the turn is refused at once and `isClosed()` is not asked; 70 R150 refuses
`step()` there and the spec says nothing of `run()`. -/
def runOnce (s : State) : Result :=
  match s.status with
  | .running =>
    let asked := emit (.closeQuery (nextInput s).closed) s
    if (nextInput s).closed then .next { asked with status := .closed } else step asked
  | .closed => .refused .coreEnded
  | .faulted _ => .refused .coreEnded

/-- `run()` (70 R149) for at most `fuel` turns (log entry 18): it ends when the core is closed, or with a fault. On a core that has already
ended it is refused in its first turn: DESIGN CHOICE (log entry 19). -/
def run : Nat → State → Result
  | 0, s => .next s
  | fuel + 1, s =>
    match runOnce s with
    | .next s' => if s'.status = .closed then .next s' else run fuel s'
    | .fault f => .fault f
    | .refused r => .refused r

/-- `updateTimers()`: no architectural effect (70 R157, 43 R107). -/
def updateTimers (s : State) : State := s

/-- A program "has finished" when `pc` holds the address of a jump to itself (70 R151); the core keeps executing it. -/
def finished (s : State) : Bool :=
  match decode (fetchWord s) with
  | .ok (.jp nnn) => pcOperand nnn == s.pc
  | _ => false

end Sys2Proof.Machine
end

