-- ==== Sys2Proof/Safety.lean ====
section
/-! DEFINITION. What counts as a sound state and a safe step, and the terms the statements use: frames, the pixels a sprite
covers, and the reading of an outcome. -/

namespace Sys2Proof

open Sys2Proof.Machine

/-- The states a session can be in (every `launch` is one and every step keeps it). -/
structure Inv (s : State) : Prop where
  /-- Memory is in canonical form, all its addresses below 0x1000 (20_memory R36). -/
  memWf : Memory.wf s.mem = true
  /-- `pc` is at most 0x1002 (10_state R25). -/
  pcLe : s.pc.toNat ≤ 0x1002
  /-- Every return address is at most 0x1000 (10_state R27). -/
  stackLe : ∀ a ∈ s.stack, a.toNat ≤ 0x1000
  /-- The stack never exceeds a finite `STACK_LIMIT` (60 R134). -/
  stackFits : ∀ limit, s.stackLimit = some limit → s.stack.length ≤ limit
  /-- The delay timer was not started after the current time (43 R105). -/
  dtStarted : s.dt.start ≤ s.input.now
  /-- The sound timer was not started after the current time (43 R105). -/
  stStarted : s.st.start ≤ s.input.now
  /-- The host time is non-negative (43 R105). -/
  timeNonneg : 0 ≤ s.input.now

/-- A step that completes: no fatal error and no refusal. -/
def SafeStep (s : State) : Prop := ∃ t, step s = .next t

/-- The two bytes at `pc` lie in memory, so that the fetch succeeds (20_memory R46). -/
abbrev Fetchable (s : State) : Prop := s.pc.toNat + 1 ≤ 0xFFF

/-- The parts of the state, other than the V registers and memory, that an instruction may change. -/
inductive Part where
  | pc | index | stack | delay | sound | screen | events
  deriving DecidableEq, Repr

/-- The frame of an instruction from `s` to `t`: only the registers `regs`, the bytes at the addresses `stored` and the
parts `parts` may differ. The run status, the open parameters, the step's inputs and the bookkeeping never do. -/
structure Keeps (regs : List Reg) (stored : Nat → Prop) (parts : List Part) (s t : State) : Prop where
  regs : ∀ r, r ∉ regs → getV t r = getV s r
  memory : ∀ a, ¬ stored a → Memory.read t.mem a = Memory.read s.mem a
  pc : Part.pc ∉ parts → t.pc = s.pc
  index : Part.index ∉ parts → t.i = s.i
  stack : Part.stack ∉ parts → t.stack = s.stack
  delay : Part.delay ∉ parts → t.dt = s.dt
  sound : Part.sound ∉ parts → t.st = s.st
  screen : Part.screen ∉ parts → t.fb = s.fb
  events : Part.events ∉ parts → t.out = s.out
  status : t.status = s.status
  bcdPartial : t.bcdPartial = s.bcdPartial
  stackLimit : t.stackLimit = s.stackLimit
  input : t.input = s.input
  pending : t.pending = s.pending
  steps : t.steps = s.steps
  loaded : t.loaded = s.loaded

/-- No address. -/
def nowhere : Nat → Prop := fun _ => False

/-- The `k` addresses from `base` on. -/
def span (base k : Nat) : Nat → Prop := fun a => base ≤ a ∧ a < base + k

/-- What address `a` reads as once the bytes `ws` are stored from `base` on over memory `m` (20_memory R45, R48). -/
def patched (m : Memory) (base : Nat) (ws : List Byte) (a : Nat) : Byte :=
  if base ≤ a ∧ a < base + ws.length then ws.getD (a - base) 0 else Memory.read m a

/-- Whether a sprite of these rows, drawn at `(x, y)`, has a bit of 1 on the pixel in column `px` of row `py`: the
coordinates wrap on entry, the sprite is clipped at the edges (44 R115). -/
def covers (x y : Byte) (rows : List Byte) (px py : Nat) : Bool :=
  decide (y.toNat % 32 ≤ py) && decide (x.toNat % 64 ≤ px) && decide (px < x.toNat % 64 + 8) &&
    (rows.getD (py - y.toNat % 32) 0).getMsbD (px - x.toNat % 64)

/-- The next state of an outcome put through a change of the state; a fault's state too. -/
def mapState (f : State → State) : Result → Result
  | .next s => .next (f s)
  | .fault (.fatal r s) => .fault (.fatal r (f s))
  | .refused r => .refused r

end Sys2Proof
end

