-- ==== Sys2Proof/Certificates/Slice0/Obligations.lean ====
section
/-! DEFINITION. The statements about the machine. Each docstring names the rules of spec/ it formalises; a state `s` of
an instruction's statement has its `pc` already advanced by 2 (00_scope R13), so its fetch address is `s.pc - 2`. -/

open Sys2Proof Sys2Proof.Machine

/-! ### Encoding -/

/-- Decoding the word, and the bytes, of any instruction gives the instruction back: no bit of an encoding is dropped
(30_encoding sections 2 and 3). -/
def Obligations.DecodeOfEncode : Prop :=
  ∀ (i : Instr) (rest : List Byte),
    decode (encode i) = .ok i ∧ decodeBytes (encodeBytes i ++ rest) = .ok (i, rest)

/-- A word that decodes to an instruction is that instruction's encoding: two words never share an instruction
(30_encoding sections 2 and 3; `y` of 8xy6 and 8xyE is kept, R67). -/
def Obligations.EncodeOfDecode : Prop := ∀ (w : Word) (i : Instr), decode w = .ok i → encode i = w

/-- R61: the instructions are the 32 rows and no others, and a word is a row's instruction iff it matches the row. -/
def Obligations.DecodeFollowsOpcodeRows : Prop :=
  rows.length = 32 ∧ (∀ i, row i ∈ rows) ∧
    ∀ (w : Word) (r : Row), r ∈ rows → ((∃ i, decode w = .ok i ∧ row i = r) ↔ w &&& r.mask = r.pattern)

/-- R64: the words of its table, and only they, are illegal; a step that fetches one stops with the fatal error
`UnknownOpcode`, which names the four nibbles and the program counter. -/
def Obligations.IllegalWordsStopTheCore : Prop :=
  (∀ w : Word, WellFormed.illegalWord w = true ↔ ¬ ∃ i, decode w = .ok i) ∧
    ∀ s : State, s.status = .running → Fetchable s → WellFormed.illegalWord (fetchWord s) = true →
      ∃ (next : Word) (after : State), step s = .fault (.fatal
        (.unknownOpcode (fieldN1 (fetchWord s)) (fieldN2 (fetchWord s)) (fieldN3 (fetchWord s)) (fieldN4 (fetchWord s))
          s.pc next) after)

/-- A sanity check: words written out from R61's patterns decode to the instructions they stand for. -/
def Obligations.SampleWordsDecode : Prop :=
  decode 0x00EE = .ok .ret ∧ decode 0x2ABC = .ok (.call 0xABC) ∧ decode 0x812E = .ok (.shl 1 2) ∧
    decode 0xA300 = .ok (.ldI 0x300) ∧ decode 0xD3A5 = .ok (.drw 3 10 5) ∧ decode 0xEB9E = .ok (.skp 11) ∧
    decode 0xF315 = .ok (.ldDtVx 3) ∧ decode 0xFF65 = .ok (.ldVxMem 15)

/-! ### The step -/

/-- A step runs the decoded instruction: when a running core's two bytes at `pc` decode to `i`, the step is `exec i` on
the state with the step's inputs sampled and `pc` advanced by 2 (30_encoding section 1, `step()`). -/
def Obligations.StepRunsDecodedInstruction : Prop :=
  ∀ (s : State) (i : Instr), s.status = .running → Fetchable s →
    decode (bigEndian (Memory.read s.mem s.pc.toNat) (Memory.read s.mem (s.pc.toNat + 1))) = .ok i →
      step s = exec i { sampleInput s with pc := s.pc + 2 }

/-- R47: the fetched word is the byte at `pc` times 256 plus the byte at `pc + 1`; the byte at the lower address holds
`n1` and `n2`. -/
def Obligations.FetchIsBigEndian : Prop :=
  ∀ s : State,
    (fetchWord s).toNat = (Memory.read s.mem s.pc.toNat).toNat * 256 + (Memory.read s.mem (s.pc.toNat + 1)).toNat ∧
    (fieldN1 (fetchWord s)).toNat = (Memory.read s.mem s.pc.toNat).toNat / 16 ∧
    (fieldN2 (fetchWord s)).toNat = (Memory.read s.mem s.pc.toNat).toNat % 16

/-- A fetch that would touch an address above 0xFFF stops with `MemoryBounds`, whose record holds the first such
address, and leaves `pc` at the fetch address (20_memory section 3, 60_exceptions sections 1 and 3; the spec's own
decisions D2 and D21). -/
def Obligations.FetchOutOfRangeFaults : Prop :=
  ∀ s : State, s.status = .running → ¬ Fetchable s →
    step s = .fault (.fatal (.memoryBounds s.pc (max s.pc.toNat 0x1000))
      { sampleInput s with status := .faulted (.memoryBounds s.pc (max s.pc.toNat 0x1000)) })

/-- The full record of `UnknownOpcode`, with both addresses, and the state it leaves: only `pc` has advanced
(60_exceptions sections 1 and 3; the spec's own decisions D21 and D22). -/
def Obligations.UnknownOpcodeLeavesAdvancedPc : Prop :=
  ∀ s : State, s.status = .running → Fetchable s → WellFormed.illegalWord (fetchWord s) = true →
    step s = .fault (.fatal (unknownOpcode (fetchWord s) s.pc)
      { sampleInput s with pc := s.pc + 2, status := .faulted (unknownOpcode (fetchWord s) s.pc) })

/-- A `Closed` or `Faulted` core takes no step: `step` refuses (70_reset_and_hazards section 2; the spec's own decision
D30), and so does the run loop, before it asks `isClosed()` (the model's choice, log entry 19: the spec says nothing of
`run()` on such a core). -/
def Obligations.EndedCoreRefusesSteps : Prop :=
  ∀ s : State, s.status ≠ .running → step s = .refused .coreEnded ∧ runOnce s = .refused .coreEnded

/-- Each turn of the run loop asks `isClosed()` first; if it answers true the status becomes `Closed` and no instruction
runs, else the turn is a step (70_reset_and_hazards section 2, `run()`). That the answer stands with the coming step's
inputs, and the event list, are the model's choice (log entries 1, 11 and 18). -/
def Obligations.RunLoopAsksToCloseFirst : Prop :=
  ∀ s : State, s.status = .running →
    runOnce s = if (nextInput s).closed
      then .next { s with status := .closed, out := s.out ++ [.closeQuery true] }
      else step { s with out := s.out ++ [.closeQuery false] }

/-! ### Register arithmetic and logic -/

/-- R82, R84: 6xnn and 8xy0 write the destination and nothing else. -/
def Obligations.LoadAndCopyRegisters : Prop :=
  ∀ (x y : Reg) (nn : Byte) (s : State),
    (∃ t, exec (.ldImm x nn) s = .next t ∧ getV t x = nn ∧ Keeps [x] nowhere [] s t) ∧
    (∃ t, exec (.ldReg x y) s = .next t ∧ getV t x = getV s y ∧ Keeps [x] nowhere [] s t)

/-- R85, R86, R87: OR, AND and XOR write the destination and nothing else; VF is not reset. -/
def Obligations.BitwiseLogic : Prop :=
  ∀ (x y : Reg) (s : State),
    (∃ t, exec (.or x y) s = .next t ∧ getV t x = getV s x ||| getV s y ∧ Keeps [x] nowhere [] s t) ∧
    (∃ t, exec (.and x y) s = .next t ∧ getV t x = getV s x &&& getV s y ∧ Keeps [x] nowhere [] s t) ∧
    (∃ t, exec (.xor x y) s = .next t ∧ getV t x = getV s x ^^^ getV s y ∧ Keeps [x] nowhere [] s t)

/-- R83: 7xnn adds modulo 256 and writes no flag. -/
def Obligations.AddImmediateWraps : Prop :=
  ∀ (x : Reg) (nn : Byte) (s : State),
    ∃ t, exec (.addImm x nn) s = .next t ∧ (getV t x).toNat = ((getV s x).toNat + nn.toNat) % 256 ∧
      Keeps [x] nowhere [] s t

/-- R88: 8xy4 writes the carry to VF and then the sum modulo 256 to V[x], so that with x = F the sum is what stays. -/
def Obligations.AddRegistersWithCarry : Prop :=
  ∀ (x y : Reg) (s : State),
    ∃ t, exec (.addReg x y) s = .next t ∧
      (getV t x).toNat = ((getV s x).toNat + (getV s y).toNat) % 256 ∧
      (x ≠ vf → getV t vf = if (getV s x).toNat + (getV s y).toNat > 255 then 1 else 0) ∧
      Keeps [x, vf] nowhere [] s t

/-- 8xy5 and 8xy7 where neither operand is VF: the difference modulo 256, and VF 1 iff the minuend is strictly greater
(41_alu, "8xy5" and "8xy7"). The forms with x = F or y = F are `VfAsOperand`. -/
def Obligations.SubtractRegisters : Prop :=
  ∀ (x y : Reg) (s : State), x ≠ vf → y ≠ vf →
    (∃ t, exec (.sub x y) s = .next t ∧
      (getV t x).toNat = ((getV s x).toNat + 256 - (getV s y).toNat) % 256 ∧
      getV t vf = (if (getV s x).toNat > (getV s y).toNat then 1 else 0) ∧ Keeps [x, vf] nowhere [] s t) ∧
    (∃ t, exec (.subn x y) s = .next t ∧
      (getV t x).toNat = ((getV s y).toNat + 256 - (getV s x).toNat) % 256 ∧
      getV t vf = (if (getV s y).toNat > (getV s x).toNat then 1 else 0) ∧ Keeps [x, vf] nowhere [] s t)

/-- The table of 41_alu, "VF as operand: summary", for 8xy4, 8xy5 and 8xy7 (its shift rows are `ShiftsInPlace`): what
the written order of the statements leaves when x or y is F. It rests on the spec's own decision D1. -/
def Obligations.VfAsOperand : Prop :=
  ∀ (x y : Reg) (s : State), x ≠ vf → y ≠ vf →
    (∃ t, exec (.addReg vf y) s = .next t ∧ getV t vf = getV s vf + getV s y ∧ Keeps [vf] nowhere [] s t) ∧
    (∃ t, exec (.addReg x vf) s = .next t ∧ getV t vf = flagByte (carryFlag (getV s x) (getV s vf)) ∧
      getV t x = getV s x + getV s vf ∧ Keeps [x, vf] nowhere [] s t) ∧
    (∃ t, exec (.addReg vf vf) s = .next t ∧ getV t vf = getV s vf + getV s vf ∧ Keeps [vf] nowhere [] s t) ∧
    (∃ t, exec (.sub vf y) s = .next t ∧
      getV t vf = (if (getV s vf).toNat > (getV s y).toNat then 1 else 0) - getV s y ∧ Keeps [vf] nowhere [] s t) ∧
    (∃ t, exec (.sub x vf) s = .next t ∧
      getV t vf = (if (getV s x).toNat > (getV s vf).toNat then 1 else 0) ∧ getV t x = getV s x - getV t vf ∧
      Keeps [x, vf] nowhere [] s t) ∧
    (∃ t, exec (.sub vf vf) s = .next t ∧ getV t vf = 0 ∧ Keeps [vf] nowhere [] s t) ∧
    (∃ t, exec (.subn vf y) s = .next t ∧
      getV t vf = getV s y - (if (getV s y).toNat > (getV s vf).toNat then 1 else 0) ∧ Keeps [vf] nowhere [] s t) ∧
    (∃ t, exec (.subn x vf) s = .next t ∧
      getV t vf = (if (getV s vf).toNat > (getV s x).toNat then 1 else 0) ∧ getV t x = getV t vf - getV s x ∧
      Keeps [x, vf] nowhere [] s t) ∧
    (∃ t, exec (.subn vf vf) s = .next t ∧ getV t vf = 0 ∧ Keeps [vf] nowhere [] s t)

/-- R90, R92: the shifts work in place on V[x] and ignore y; VF takes the bit shifted out, unless x = F, where the shift
of that bit is what stays. -/
def Obligations.ShiftsInPlace : Prop :=
  ∀ (x y : Reg) (s : State),
    (∃ t, exec (.shr x y) s = .next t ∧
      (x ≠ vf → (getV t x).toNat = (getV s x).toNat / 2 ∧ (getV t vf).toNat = (getV s x).toNat % 2) ∧
      (x = vf → getV t vf = 0) ∧ Keeps [x, vf] nowhere [] s t) ∧
    (∃ t, exec (.shl x y) s = .next t ∧
      (x ≠ vf → (getV t x).toNat = (getV s x).toNat * 2 % 256 ∧ (getV t vf).toNat = (getV s x).toNat / 128) ∧
      (x = vf → (getV t vf).toNat = (getV s vf).toNat / 128 * 2) ∧ Keeps [x, vf] nowhere [] s t)

/-- R93: whatever byte `r` the random source gives the step, Cxnn writes `r AND nn` and nothing else. -/
def Obligations.RandomByteAndImmediate : Prop :=
  ∀ (x : Reg) (nn r : Byte) (s : State), s.input.random = r →
    ∃ t, exec (.rnd x nn) s = .next t ∧ getV t x = r &&& nn ∧ Keeps [x] nowhere [] s t

/-! ### Control flow -/

/-- R73: 1nnn sets `pc` to `nnn` and changes nothing else. -/
def Obligations.JumpSetsPc : Prop :=
  ∀ (nnn : Addr) (s : State),
    ∃ t, exec (.jp nnn) s = .next t ∧ t.pc.toNat = nnn.toNat ∧ Keeps [] nowhere [.pc] s t

/-- 2nnn appends the advanced `pc` to the stack and jumps; only at a finite `STACK_LIMIT` does it stop, with
`StackOverflow` and no change (40_control_flow "2nnn", 60_exceptions section 1; the limit is the spec's decision D11). -/
def Obligations.CallPushesReturnAddress : Prop :=
  ∀ (nnn : Addr) (s : State),
    (s.stackLimit ≠ some s.stack.length →
      ∃ t, exec (.call nnn) s = .next t ∧ t.stack = s.stack ++ [s.pc] ∧ t.pc.toNat = nnn.toNat ∧
        Keeps [] nowhere [.pc, .stack] s t) ∧
    (s.stackLimit = some s.stack.length →
      exec (.call nnn) s = .fault (.fatal (.stackOverflow (s.pc - 2))
        { s with status := .faulted (.stackOverflow (s.pc - 2)) }))

/-- R72: 00EE jumps to the last address pushed and removes it; on an empty stack it raises `StackUnderflow` with its
fetch address. -/
def Obligations.ReturnPopsTheStack : Prop :=
  (∀ (s : State) (below : List Word) (a : Word), s.stack = below ++ [a] →
    ∃ t, exec .ret s = .next t ∧ t.pc = a ∧ t.stack = below ∧ Keeps [] nowhere [.pc, .stack] s t) ∧
  ∀ s : State, s.stack = [] → ∃ after, exec .ret s = .fault (.fatal (.stackUnderflow (s.pc - 2)) after)

/-- R75, R76, R77, R78: the four skips add 2 to the advanced `pc` exactly on their condition and change nothing else; a
word with the `n1` of 5xy0 or 9xy0 and a last nibble that is not 0 is illegal. -/
def Obligations.SkipsCompareRegisters : Prop :=
  (∀ (x y : Reg) (nn : Byte) (s : State),
    (∃ t, exec (.seImm x nn) s = .next t ∧ t.pc = (if getV s x = nn then s.pc + 2 else s.pc) ∧
      Keeps [] nowhere [.pc] s t) ∧
    (∃ t, exec (.sneImm x nn) s = .next t ∧ t.pc = (if getV s x = nn then s.pc else s.pc + 2) ∧
      Keeps [] nowhere [.pc] s t) ∧
    (∃ t, exec (.seReg x y) s = .next t ∧ t.pc = (if getV s x = getV s y then s.pc + 2 else s.pc) ∧
      Keeps [] nowhere [.pc] s t) ∧
    (∃ t, exec (.sneReg x y) s = .next t ∧ t.pc = (if getV s x = getV s y then s.pc else s.pc + 2) ∧
      Keeps [] nowhere [.pc] s t)) ∧
  ∀ w : Word, fieldN1 w = 5 ∨ fieldN1 w = 9 → fieldN4 w ≠ 0 → ¬ ∃ i, decode w = .ok i

/-! ### Index register and memory -/

/-- R96, R97, R98: the three writes of `I`; Fx1E neither wraps nor sets a flag, Fx29 does not mask V[x]. -/
def Obligations.IndexRegisterWrites : Prop :=
  ∀ (nnn : Addr) (x : Reg) (s : State),
    (∃ t, exec (.ldI nnn) s = .next t ∧ t.i = nnn.toNat ∧ Keeps [] nowhere [.index] s t) ∧
    (∃ t, exec (.addI x) s = .next t ∧ t.i = s.i + (getV s x).toNat ∧ Keeps [] nowhere [.index] s t) ∧
    (∃ t, exec (.ldF x) s = .next t ∧ t.i = 0x50 + (getV s x).toNat * 5 ∧ Keeps [] nowhere [.index] s t)

/-- Fx33 in range stores the hundreds, the tens and the units of V[x] at `I`, `I + 1`, `I + 2` and changes nothing else
(42_index_memory "Fx33"; the range is the spec's decision D3). -/
def Obligations.DecimalDigitsStored : Prop :=
  ∀ (x : Reg) (s : State), s.i ≤ 0xFFD →
    ∃ t, exec (.ldB x) s = .next t ∧
      (Memory.read t.mem s.i).toNat = (getV s x).toNat / 100 ∧
      (Memory.read t.mem (s.i + 1)).toNat = (getV s x).toNat / 10 % 10 ∧
      (Memory.read t.mem (s.i + 2)).toNat = (getV s x).toNat % 10 ∧
      Keeps [] (span s.i 3) [] s t

/-- Fx33 out of range reports the fetch address and `I` and goes on. It writes no byte, or, under `BCD_PARTIAL`, the
digits whose addresses lie in memory; the statement holds for both values (42_index_memory "Fx33", 60_exceptions
section 1; the spec's decision D3). -/
def Obligations.DecimalOutOfRangeReports : Prop :=
  ∀ (x : Reg) (s : State), s.i > 0xFFD →
    ∃ t, exec (.ldB x) s = .next t ∧ t.out = s.out ++ [.bcdRange (s.pc - 2) s.i] ∧
      (s.bcdPartial = false → Keeps [] nowhere [.events] s t) ∧
      (s.bcdPartial = true →
        Keeps [] (fun a => span s.i 3 a ∧ a ≤ 0xFFF) [.events] s t ∧
        (s.i ≤ 0xFFF → (Memory.read t.mem s.i).toNat = (getV s x).toNat / 100) ∧
        (s.i + 1 ≤ 0xFFF → (Memory.read t.mem (s.i + 1)).toNat = (getV s x).toNat / 10 % 10))

/-- Fx55 in range stores V0..Vx at `I`, `I + 1`, … and changes nothing else, `I` among it (42_index_memory "Fx55"). -/
def Obligations.RegistersStored : Prop :=
  ∀ (x : Reg) (s : State), s.i + x.val ≤ 0xFFF →
    ∃ t, exec (.ldMemVx x) s = .next t ∧ (∀ r : Reg, r ≤ x → Memory.read t.mem (s.i + r.val) = getV s r) ∧
      Keeps [] (span s.i (x.val + 1)) [] s t

/-- Fx65 in range loads V0..Vx from `I`, `I + 1`, … and changes nothing else, `I` among it (42_index_memory "Fx65"). -/
def Obligations.RegistersLoaded : Prop :=
  ∀ (x : Reg) (s : State), s.i + x.val ≤ 0xFFF →
    ∃ t, exec (.ldVxMem x) s = .next t ∧ (∀ r : Reg, r ≤ x → getV t r = Memory.read s.mem (s.i + r.val)) ∧
      Keeps ((List.finRange 16).filter (· ≤ x)) nowhere [] s t

/-- Dxyn with a row to read, Fx55 and Fx65 that would reach past 0xFFF stop with `MemoryBounds` at the first such
address, and change nothing (20_memory section 3, 60_exceptions section 1; the spec's own decision D2). -/
def Obligations.OutOfRangeAccessFaults : Prop :=
  ∀ (x y : Reg) (n : Nibble) (s after : State) (r : FaultRecord),
    r = .memoryBounds (s.pc - 2) (max s.i 0x1000) → after = { s with status := .faulted r } →
    (s.i + x.val > 0xFFF → exec (.ldMemVx x) s = .fault (.fatal r after) ∧
      exec (.ldVxMem x) s = .fault (.fatal r after)) ∧
    (n ≠ 0 → s.i + n.toNat > 0x1000 → exec (.drw x y n) s = .fault (.fatal r after))

/-- Registers stored by Fx55 come back by Fx65 with the same `x` and `I`, whatever the registers held in between
(42_index_memory "Fx55" and "Fx65"). -/
def Obligations.StoreThenLoadRestores : Prop :=
  ∀ (x : Reg) (s t : State) (v : Vector Byte 16), exec (.ldMemVx x) s = .next t →
    ∃ u, exec (.ldVxMem x) { t with v := v } = .next u ∧ ∀ r : Reg, r ≤ x → getV u r = getV s r

/-- A store by Fx55 or Fx33 over the bytes at `pc`, over one of them or over both, is seen by the very next fetch: each
byte of the fetched word is the stored byte where the store covers its address, and the old byte where it does not
(20_memory section 6, 70_reset_and_hazards section 3). Fx55 stores V0..Vx; Fx33 stores the digits in range, and out of
range, under `BCD_PARTIAL` only, those whose addresses lie in memory (the spec's decisions D2 and D3, log entries 9 and
14). -/
def Obligations.StoreSeenByNextFetch : Prop :=
  ∀ (x : Reg) (s : State),
    (s.i + x.val ≤ 0xFFF → ∃ (t : State) (ws : List Byte), exec (.ldMemVx x) s = .next t ∧ ws.length = x.val + 1 ∧
      (∀ r : Reg, r ≤ x → ws[r.val]? = some (getV s r)) ∧
      fetchWord t = bigEndian (patched s.mem s.i ws s.pc.toNat) (patched s.mem s.i ws (s.pc.toNat + 1))) ∧
    ∃ (t : State) (ws digits : List Byte), exec (.ldB x) s = .next t ∧
      digits.map BitVec.toNat = [(getV s x).toNat / 100, (getV s x).toNat / 10 % 10, (getV s x).toNat % 10] ∧
      ws = (if s.i ≤ 0xFFD then digits else if s.bcdPartial then digits.take (0x1000 - s.i) else []) ∧
      fetchWord t = bigEndian (patched s.mem s.i ws s.pc.toNat) (patched s.mem s.i ws (s.pc.toNat + 1))

/-! ### Timers -/

/-- R110, R111: Fx15 and Fx18 write the timer's stored value and set its start to the step's time sample. -/
def Obligations.TimersAreSet : Prop :=
  ∀ (x : Reg) (s : State),
    (∃ t, exec (.ldDtVx x) s = .next t ∧ t.dt.stored = getV s x ∧ t.dt.start = s.input.now ∧
      Keeps [] nowhere [.delay] s t) ∧
    (∃ t, exec (.ldStVx x) s = .next t ∧ t.st.stored = getV s x ∧ t.st.start = s.input.now ∧
      Keeps [] nowhere [.sound] s t)

/-- Fx07 reads `max(0, S - floor(60 * (t - T)))` and writes nothing back (43_timers "Timer model" and "Fx07"). That the
read rebases nothing is the spec's own decision D13 (log entry 15), and times are rationals in the model (log entry 3).
The premise is part of `Inv`. -/
def Obligations.DelayTimerIsRead : Prop :=
  ∀ (x : Reg) (s : State), s.dt.start ≤ s.input.now →
    ∃ t, exec (.ldVxDt x) s = .next t ∧
      ((getV t x).toNat : Int) = max 0 ((s.dt.stored.toNat : Int) - (60 * (s.input.now - s.dt.start)).floor) ∧
      Keeps [x] nowhere [] s t

/-! ### Display and input -/

/-- R116, R122: 00E0 sets every pixel to 0 and calls `clear()` but not `show()`. -/
def Obligations.ClearScreenClearsAll : Prop :=
  ∀ s : State, ∃ t, exec .cls s = .next t ∧ (∀ px py, pixel t.fb px py = false) ∧
    t.out = s.out ++ [.displayClear] ∧ Keeps [] nowhere [.screen, .events] s t

/-- Dxyn in range toggles exactly the pixels its sprite covers, clipped at the edges, and sets VF iff one of them was 1;
the coordinates are V[x] and V[y] before VF is written; `show()` follows the draw; `I` and memory stay
(44_display_input "Display capability contract" and "Dxyn"; the edges are the spec's decision D16). -/
def Obligations.DrawTogglesCoveredPixels : Prop :=
  ∀ (x y : Reg) (n : Nibble) (s : State), (n = 0 ∨ s.i + n.toNat ≤ 0x1000) →
    ∃ (t : State) (rows : List Byte) (c : Bool), exec (.drw x y n) s = .next t ∧ rows.length = n.toNat ∧
      (∀ j, j < n.toNat → rows[j]? = some (Memory.read s.mem (s.i + j))) ∧
      (∀ px py, pixel t.fb px py = (pixel s.fb px py ^^ covers (getV s x) (getV s y) rows px.val py.val)) ∧
      (c = true ↔ ∃ px py, covers (getV s x) (getV s y) rows px.val py.val = true ∧ pixel s.fb px py = true) ∧
      getV t vf = (if c then 1 else 0) ∧
      t.out = s.out ++ [.displayDraw (getV s x) (getV s y) rows c, .displayShow] ∧
      Keeps [vf] nowhere [.screen, .events] s t

/-- Drawing the same sprite twice at the same place restores the framebuffer: after a draw from `s` to `t`, a second draw
from any state `r` with the screen, the memory and `I` that the first draw left and the coordinates it used. `r` is `t`
itself unless x or y is F and the draw changed VF; then the program writes VF back in between. The second draw reports a
collision exactly if the sprite covers a pixel that was 0 at first: the spec's remark in "Dxyn" asks only for a covered
pixel, which its own draw algorithm does not bear out (log entry 17). -/
def Obligations.DrawTwiceRestoresScreen : Prop :=
  ∀ (x y : Reg) (n : Nibble) (s t r : State), exec (.drw x y n) s = .next t →
    r.fb = t.fb → r.mem = t.mem → r.i = t.i → getV r x = getV s x → getV r y = getV s y →
      ∃ u, exec (.drw x y n) r = .next u ∧ u.fb = s.fb ∧
        (getV u vf = 1 ↔ ∃ px py, covers (getV s x) (getV s y) (spriteRows s n) px.val py.val = true ∧
          pixel s.fb px py = false) ∧
        (getV u vf = 0 ∨ getV u vf = 1)

/-- Ex9E and ExA1 with a key number of at most 15 ask for that key once and skip on its answer
(44_display_input "Ex9E" and "ExA1"). -/
def Obligations.KeySkipsFollowTheKey : Prop :=
  ∀ (x : Reg) (s : State) (down : Bool), (getV s x).toNat ≤ 15 → s.input.keys.getLsbD (getV s x).toNat = down →
    (∃ t, exec (.skp x) s = .next t ∧ t.pc = (if down then s.pc + 2 else s.pc) ∧
      t.out = s.out ++ [.keyQuery (getV s x) down] ∧ Keeps [] nowhere [.pc, .events] s t) ∧
    (∃ t, exec (.sknp x) s = .next t ∧ t.pc = (if down then s.pc else s.pc + 2) ∧
      t.out = s.out ++ [.keyQuery (getV s x) down] ∧ Keeps [] nowhere [.pc, .events] s t)

/-- Ex9E and ExA1 with V[x] > 15 raise `KeyOutOfRange` before any key is asked for (44_display_input, 60_exceptions
section 1; the spec's own decision D4). -/
def Obligations.KeyAboveFifteenFaults : Prop :=
  ∀ (x : Reg) (s after : State) (r : FaultRecord), (getV s x).toNat > 15 →
    r = .keyOutOfRange (s.pc - 2) (getV s x) → after = { s with status := .faulted r } →
      exec (.skp x) s = .fault (.fatal r after) ∧ exec (.sknp x) s = .fault (.fatal r after)

/-! ### The whole machine -/

/-- Every step, and every turn of the run loop, keeps the invariant `Inv`, from any state that has it: canonical memory,
`pc` at most 0x1002, return addresses at most 0x1000, a finite stack limit kept, no timer started in the future
(10_state sections 3 and 4, 20_memory section 1, 43_timers "Timer model"). The clauses on the timers and the time hold
because a sample never goes back, which is the model's choice (log entry 3; the spec's D14 makes it the host's duty); the
stack limit is the model's field for the spec's decision D11 (log entry 10). -/
def Obligations.StepKeepsInvariant : Prop :=
  ∀ s t : State, Inv s → (step s = .next t ∨ runOnce s = .next t) → Inv t

/-- The state right after reset meets the invariant. -/
def Obligations.ResetMeetsInvariant : Prop := Inv State.reset

/-- Every launch the spec allows meets the invariant, whatever the open launch values. -/
def Obligations.LaunchMeetsInvariant : Prop := ∀ l : Launch, WellFormed.launch l = true → Inv (launch l)

/-- The state after construction for any launch values (10_state section 7, 70_reset_and_hazards section 1): `pc`, the
status and the font's place are what the spec gives or derives; the empty stack and the timestamps at the construction
time are the spec's own decisions D9 and D8 (log entry 7); the rest are the open launch values. -/
def Obligations.LaunchFollowsResetTable : Prop :=
  ∀ l : Launch, WellFormed.launch l = true →
    (launch l).pc = 0x200 ∧ (launch l).stack = [] ∧ (launch l).status = .running ∧
    (launch l).dt = ⟨l.initDT, l.startTime⟩ ∧ (launch l).st = ⟨l.initST, l.startTime⟩ ∧
    (launch l).v = l.initV ∧ (launch l).i = l.initI ∧ (launch l).fb = l.initFB ∧
    (∀ k : Fin 80, Memory.read (launch l).mem (0x50 + k.val) = l.font.get k) ∧
    ∀ a, a < l.initMem.length → (a < 0x50 ∨ 0x9F < a) → some (Memory.read (launch l).mem a) = l.initMem[a]?

/-- `State.reset` is the launch with the model's reference values (log entries 4 to 10: the model's choice where the spec
leaves the launch values open). -/
def Obligations.ResetIsReferenceLaunch : Prop := launch referenceLaunch = State.reset

/-- `load` before the first step copies the image verbatim from 0x200 and leaves every other byte and the rest of the
core alone (20_memory section 7). -/
def Obligations.LoadCopiesImage : Prop :=
  ∀ (s : State) (bytes : List Byte), s.loaded = false → s.steps = 0 → bytes.length ≤ 3584 →
    ∃ t, load bytes s = .next t ∧ (∀ k, k < bytes.length → some (Memory.read t.mem (0x200 + k)) = bytes[k]?) ∧
      (∀ a, a < 0x200 ∨ 0x200 + bytes.length ≤ a → Memory.read t.mem a = Memory.read s.mem a) ∧
      t = { s with mem := t.mem, loaded := true }

/-- A longer image, a second load and a load after a step are refused (20_memory section 7, 70_reset_and_hazards
section 5; the spec's own decision D24). -/
def Obligations.LoadRefusesMisuse : Prop :=
  ∀ (s : State) (bytes : List Byte),
    (s.loaded = true ∨ s.steps ≠ 0 → load bytes s = .refused .lateLoad) ∧
    (s.loaded = false → s.steps = 0 → bytes.length > 3584 → load bytes s = .refused .imageTooLong)

/-- No instruction is refused, and errors are precise: an instruction that raises a fatal error leaves everything but the
run status as it was, and only the instructions of the taxonomy raise each error (60_exceptions sections 1 and 3; the
spec's own decisions D2, D4, D11, D21). -/
def Obligations.ErrorsArePrecise : Prop :=
  ∀ (i : Instr) (s : State),
    (∃ t, exec i s = .next t) ∨
    ∃ r, exec i s = .fault (.fatal r { s with status := .faulted r }) ∧
      ((i = .ret ∧ r = .stackUnderflow (s.pc - 2)) ∨
       ((∃ nnn, i = .call nnn) ∧ r = .stackOverflow (s.pc - 2)) ∨
       ((∃ x, i = .skp x ∨ i = .sknp x) ∧ ∃ k, r = .keyOutOfRange (s.pc - 2) k) ∨
       ((∃ x y n, i = .drw x y n ∨ i = .ldMemVx x ∨ i = .ldVxMem x) ∧
          r = .memoryBounds (s.pc - 2) (max s.i 0x1000)))

/-- Memory is written by Fx33 and Fx55 only (20_memory section 1). -/
def Obligations.MemoryWrittenOnlyByStores : Prop :=
  ∀ (i : Instr) (s t : State), exec i s = .next t →
    (∃ x, i = .ldB x ∨ i = .ldMemVx x) ∨ ∀ a, Memory.read t.mem a = Memory.read s.mem a

/-- `I` is written by Annn, Fx1E and Fx29 only (10_state section 2). -/
def Obligations.IndexWrittenOnlyByThree : Prop :=
  ∀ (i : Instr) (s t : State), exec i s = .next t →
    (∃ nnn, i = .ldI nnn) ∨ (∃ x, i = .addI x ∨ i = .ldF x) ∨ t.i = s.i

/-- Apart from the fetch advance, `pc` changes only by a jump, a call, a return or a skip, and a skip adds 2
(10_state section 3). -/
def Obligations.PcWrittenOnlyByControlFlow : Prop :=
  ∀ (i : Instr) (s t : State), exec i s = .next t →
    t.pc = s.pc ∨ i = .ret ∨ (∃ nnn, i = .jp nnn ∨ i = .call nnn) ∨
      ((∃ x y nn, i = .seImm x nn ∨ i = .sneImm x nn ∨ i = .seReg x y ∨ i = .sneReg x y ∨ i = .skp x ∨ i = .sknp x) ∧
        t.pc = s.pc + 2)

/-- The stack changes only by a call, which adds the advanced `pc` at its end, or a return, which removes the end
(10_state section 4). -/
def Obligations.StackChangedOnlyByCallAndReturn : Prop :=
  ∀ (i : Instr) (s t : State), exec i s = .next t →
    t.stack = s.stack ∨ ((∃ nnn, i = .call nnn) ∧ t.stack = s.stack ++ [s.pc]) ∨
      (i = .ret ∧ s.stack = t.stack ++ [t.pc])

/-- VF changes only as a flag of the six flag instructions or as the destination an instruction names
(10_state section 1). -/
def Obligations.VfWrittenOnlyAsFlagOrDestination : Prop :=
  ∀ (i : Instr) (s t : State), exec i s = .next t → getV t vf ≠ getV s vf →
    (∃ x y n, i = .addReg x y ∨ i = .sub x y ∨ i = .shr x y ∨ i = .subn x y ∨ i = .shl x y ∨ i = .drw x y n) ∨
    ∃ y nn, i = .ldImm vf nn ∨ i = .addImm vf nn ∨ i = .ldReg vf y ∨ i = .or vf y ∨ i = .and vf y ∨ i = .xor vf y ∨
      i = .rnd vf nn ∨ i = .ldVxDt vf ∨ i = .ldVxMem vf

/-- No instruction reads the sound timer: what any instruction does is the same for every value of it, and only Fx18
changes it. The host alone samples it, as `SoundValue(t) = max(0, ST_S - floor(60 * (t - ST_T)))`, after Fx18 with the
register's value and the step's time sample (43_timers "Timer model" and "Fx18"; the output is the spec's own decision
D26, log entry 15, and times are rationals, log entry 3). -/
def Obligations.SoundTimerIsUnobserved : Prop :=
  ∀ (i : Instr) (s : State) (z : Timer),
    ((∃ x, i = .ldStVx x) → exec i { s with st := z } = exec i s) ∧
    ((¬ ∃ x, i = .ldStVx x) → exec i { s with st := z } = mapState (fun t => { t with st := z }) (exec i s)) ∧
    (∀ time : Time, soundValue s time = max 0 ((s.st.stored.toNat : Int) - (60 * (time - s.st.start)).floor)) ∧
    ∀ x, i = .ldStVx x → ∃ t, exec i s = .next t ∧ ∀ time : Time,
      soundValue t time = max 0 (((getV s x).toNat : Int) - (60 * (time - s.input.now)).floor)

/-- The outside reaches an instruction only where the spec samples it: the random byte matters to Cxnn alone, the keys to
Ex9E and ExA1 alone, the time to Fx07, Fx15 and Fx18 alone (60_exceptions section 4). -/
def Obligations.InputsReadOnlyWhereSampled : Prop :=
  ∀ (i : Instr) (s : State),
    (∀ b, (¬ ∃ x nn, i = .rnd x nn) →
      exec i { s with input := { s.input with random := b } } =
        mapState (fun t => { t with input := { t.input with random := b } }) (exec i s)) ∧
    (∀ k, (¬ ∃ x, i = .skp x ∨ i = .sknp x) →
      exec i { s with input := { s.input with keys := k } } =
        mapState (fun t => { t with input := { t.input with keys := k } }) (exec i s)) ∧
    (∀ z, (¬ ∃ x, i = .ldVxDt x ∨ i = .ldDtVx x ∨ i = .ldStVx x) →
      exec i { s with input := { s.input with now := z } } =
        mapState (fun t => { t with input := { t.input with now := z } }) (exec i s))

/-- What every completed step leaves: the core runs on, the open parameters stand, the host time has not gone back, the
step is counted, and the output events have only grown (10_state section 6, 43_timers "Timer model", 60_exceptions
section 6). The count and the event list are the model's own (log entries 1 and 11); that the time never goes back is
the model's choice (log entry 3; the spec's D14 makes it the host's duty). -/
def Obligations.StepBookkeeping : Prop :=
  ∀ s t : State, step s = .next t →
    t.status = .running ∧ t.bcdPartial = s.bcdPartial ∧ t.stackLimit = s.stackLimit ∧ t.loaded = s.loaded ∧
      s.input.now ≤ t.input.now ∧ t.steps = s.steps + 1 ∧ s.out <+: t.out
end

