-- ==== Sys2Proof/Laws/Decode.lean ====
section
/-! SUPPORT. The fields of a word that the encoder builds. -/

namespace Sys2Proof

theorem toNat_wordXYN {n1 : Nat} (h : n1 < 16) (x y : Reg) (n : Nibble) :
    (wordXYN n1 x y n).toNat = n1 * 0x1000 + x.val * 0x100 + y.val * 0x10 + n.toNat := by
  simp only [wordXYN, BitVec.toNat_ofNat]; omega

theorem toNat_wordXNN {n1 : Nat} (h : n1 < 16) (x : Reg) (nn : Byte) :
    (wordXNN n1 x nn).toNat = n1 * 0x1000 + x.val * 0x100 + nn.toNat := by
  simp only [wordXNN, BitVec.toNat_ofNat]; omega

theorem toNat_wordNNN {n1 : Nat} (h : n1 < 16) (nnn : Addr) :
    (wordNNN n1 nnn).toNat = n1 * 0x1000 + nnn.toNat := by
  simp only [wordNNN, BitVec.toNat_ofNat]; omega

theorem toNat_fieldN1 (w : Word) : (fieldN1 w).toNat = w.toNat / 0x1000 := by
  simp only [fieldN1, BitVec.extractLsb'_toNat, Nat.shiftRight_eq_div_pow]; omega

theorem val_fieldX (w : Word) : (fieldX w).val = w.toNat / 0x100 % 0x10 := by
  show (w.extractLsb' 8 4).toNat = _
  simp only [BitVec.extractLsb'_toNat, Nat.shiftRight_eq_div_pow]

theorem val_fieldY (w : Word) : (fieldY w).val = w.toNat / 0x10 % 0x10 := by
  show (w.extractLsb' 4 4).toNat = _
  simp only [BitVec.extractLsb'_toNat, Nat.shiftRight_eq_div_pow]

theorem toNat_fieldN4 (w : Word) : (fieldN4 w).toNat = w.toNat % 0x10 := by
  simp only [fieldN4, BitVec.extractLsb'_toNat, Nat.shiftRight_zero]

theorem toNat_fieldNN (w : Word) : (fieldNN w).toNat = w.toNat % 0x100 := by
  simp only [fieldNN, BitVec.extractLsb'_toNat, Nat.shiftRight_zero]

theorem toNat_fieldNNN (w : Word) : (fieldNNN w).toNat = w.toNat % 0x1000 := by
  simp only [fieldNNN, BitVec.extractLsb'_toNat, Nat.shiftRight_zero]

/-- A fetched word is its high byte times 256 plus its low byte (20_memory R47). -/
theorem toNat_bigEndian (hi lo : Byte) : (bigEndian hi lo).toNat = hi.toNat * 256 + lo.toNat := by
  rw [bigEndian, BitVec.toNat_append, ← Nat.shiftLeft_add_eq_or_of_lt lo.isLt, Nat.shiftLeft_eq]

/-- The bytes of a word, put together again (20_memory R47). -/
theorem bigEndian_bytes (w : Word) : bigEndian (highByte w) (lowByte w) = w := by
  apply BitVec.eq_of_toNat_eq
  rw [toNat_bigEndian]
  simp only [highByte, lowByte, BitVec.extractLsb'_toNat, Nat.shiftRight_eq_div_pow]
  omega

/-- `decode` fails only with the word's own nibbles (30_encoding R64). -/
theorem decode_error {w : Word} {e : DecodeError} (h : decode w = .error e) :
    e = .unknownOpcode (fieldN1 w) (fieldN2 w) (fieldN3 w) (fieldN4 w) := by
  simp only [decode, decode8, decodeF, illegal] at h
  repeat' split at h
  all_goals first | cases h; rfl | cases h

end Sys2Proof
end

