-- ==== Sys2Proof/Laws/Display.lean ====
section
/-! SUPPORT. The Display: one pixel write, and everything a draw does to the framebuffer and the collision. -/

namespace Sys2Proof.Machine

theorem pixel_setPixel (fb : Framebuffer) (px qx : Fin 64) (py qy : Fin 32) (p : Bool) :
    pixel (setPixel fb px py p) qx qy = if qx = px ∧ qy = py then p else pixel fb qx qy := by
  simp only [pixel, setPixel, Vector.get_eq_getElem, Vector.getElem_set, Fin.ext_iff]
  by_cases hy : py.val = qy.val
  · by_cases hx : px.val = qx.val
    · simp [hy, hx]
    · have hx' : ¬ qx.val = px.val := fun e => hx e.symm
      have : py = qy := Fin.ext hy
      subst this
      simp [hx, hx']
  · have hy' : ¬ qy.val = py.val := fun e => hy e.symm
    simp [hy, hy']

/-- Two framebuffers with equal pixels are equal data. -/
theorem framebuffer_ext {f g : Framebuffer} (h : ∀ px py, pixel f px py = pixel g px py) : f = g := by
  apply Vector.ext
  intro y hy
  apply Vector.ext
  intro x hx
  simpa [pixel, Vector.get_eq_getElem] using h ⟨x, hx⟩ ⟨y, hy⟩

@[simp] theorem pixel_clearScreen (px : Fin 64) (py : Fin 32) : pixel clearScreen px py = false := by
  simp [pixel, clearScreen, Vector.get_eq_getElem]

/-- A draw `d'` that comes from `d` by toggling exactly the pixels of `bits`. -/
structure Toggles (bits : Fin 64 → Fin 32 → Bool) (d d' : Draw) : Prop where
  pixels : ∀ px py, pixel d'.fb px py = (pixel d.fb px py ^^ bits px py)
  collided : d'.collided = true ↔ d.collided = true ∨ ∃ px py, bits px py = true ∧ pixel d.fb px py = true

theorem Toggles.refl (d : Draw) : Toggles (fun _ _ => false) d d := ⟨by simp, by simp⟩

/-- Toggling one set of pixels and then a disjoint one toggles both. -/
theorem Toggles.trans {f g : Fin 64 → Fin 32 → Bool} {d d' d'' : Draw} (h : Toggles f d d') (h' : Toggles g d' d'')
    (disjoint : ∀ px py, f px py = true → g px py = false) : Toggles (fun px py => f px py || g px py) d d'' where
  pixels px py := by
    have := disjoint px py
    rw [h'.pixels, h.pixels]
    cases hf : f px py <;> cases hg : g px py <;> simp_all
  collided := by
    have clear : ∀ px py, g px py = true → pixel d'.fb px py = pixel d.fb px py := fun px py hg => by
      have : f px py = false := by
        by_contra hf
        simp [disjoint px py (by simpa using hf)] at hg
      simp [h.pixels, this]
    rw [h'.collided, h.collided]
    constructor
    · rintro ((hd | ⟨px, py, hb, hp⟩) | ⟨px, py, hb, hp⟩)
      · exact .inl hd
      · exact .inr ⟨px, py, by simp [hb], hp⟩
      · exact .inr ⟨px, py, by simp [hb], by rw [← clear px py hb]; exact hp⟩
    · rintro (hd | ⟨px, py, hb, hp⟩)
      · exact .inl (.inl hd)
      · rcases Bool.or_eq_true_iff.mp hb with hf | hg
        · exact .inl (.inr ⟨px, py, hf, hp⟩)
        · exact .inr ⟨px, py, hg, by rw [clear px py hg]; exact hp⟩

theorem Toggles.congr {f g : Fin 64 → Fin 32 → Bool} {d d' : Draw} (h : Toggles f d d')
    (hfg : ∀ px py, f px py = g px py) : Toggles g d d' := by
  have : f = g := funext fun px => funext fun py => hfg px py
  exact this ▸ h

theorem toggles_togglePixel (d : Draw) (px : Fin 64) (py : Fin 32) :
    Toggles (fun qx qy => decide (qx = px ∧ qy = py)) d (togglePixel d px py) where
  pixels qx qy := by
    simp only [togglePixel, pixel_setPixel]
    split
    · simp_all
    · rw [decide_eq_false ‹_›, Bool.xor_false]
  collided := by
    simp [togglePixel]

/-- The bits `xo` of one row, from bit `k` on. -/
theorem toggles_drawBits (bits : Byte) (x0 : Nat) (py : Fin 32) (n k : Nat) (d : Draw) :
    Toggles (fun qx qy => decide (qy = py ∧ x0 + k ≤ qx.val ∧ qx.val < x0 + k + n) && bits.getMsbD (qx.val - x0)) d
      (drawBits bits x0 py (List.range' k n) d) := by
  induction n generalizing k d with
  | zero =>
    refine (Toggles.refl d).congr fun qx qy => ?_
    rw [decide_eq_false (by omega), Bool.false_and]
  | succ n ih =>
    simp only [List.range'_succ, drawBits]
    split
    · rename_i hx
      have first : Toggles (fun qx qy => decide (qx = ⟨x0 + k, hx⟩ ∧ qy = py) && bits.getMsbD k) d
          (if bits.getMsbD k then togglePixel d ⟨x0 + k, hx⟩ py else d) := by
        split
        · exact (toggles_togglePixel d _ py).congr fun qx qy => by simp_all
        · exact (Toggles.refl d).congr fun qx qy => by simp_all
      refine (first.trans (ih (k + 1) _) ?_).congr ?_
      · intro qx qy h
        simp only [Bool.and_eq_true, decide_eq_true_eq, Fin.ext_iff] at h
        simp only [Bool.and_eq_false_iff, decide_eq_false_iff_not]
        left; omega
      · intro qx qy
        simp only [Fin.ext_iff]
        by_cases hk : qx.val = x0 + k
        · simp [hk, show x0 + k < x0 + k + (n + 1) by omega]
        · by_cases hq : qy.val = py.val
          · simp only [hk, hq, true_and, false_and, decide_false, Bool.false_and, Bool.false_or]
            congr 1
            apply decide_eq_decide.mpr
            omega
          · simp [hq]
    · refine (Toggles.refl d).congr fun qx qy => ?_
      rw [decide_eq_false (by omega), Bool.false_and]

/-- The rows of a sprite from screen row `y` on. -/
theorem toggles_drawRows (x0 : Nat) (rows : List Byte) (y : Nat) (d : Draw) :
    Toggles (fun qx qy => decide (y ≤ qy.val) && decide (x0 ≤ qx.val) && decide (qx.val < x0 + 8) &&
      (rows.getD (qy.val - y) 0).getMsbD (qx.val - x0)) d (drawRows x0 rows y d) := by
  induction rows generalizing y d with
  | nil => exact (Toggles.refl d).congr fun qx qy => by simp
  | cons bits rows ih =>
    simp only [drawRows]
    split
    · rename_i hy
      have first := toggles_drawBits bits x0 ⟨y, hy⟩ 8 0 d
      rw [← List.range_eq_range'] at first
      refine (first.trans (ih (y + 1) _) ?_).congr ?_
      · intro qx qy h
        simp only [Bool.and_eq_true, decide_eq_true_eq, Fin.ext_iff] at h
        simp only [Bool.and_eq_false_iff, decide_eq_false_iff_not]
        left; left; left; omega
      · intro qx qy
        by_cases hq : qy.val = y
        · simp [Fin.ext_iff, hq]
        · by_cases hl : y + 1 ≤ qy.val
          · obtain ⟨j, hj⟩ : ∃ j, qy.val - y = j + 1 := ⟨qy.val - y - 1, by omega⟩
            simp [Fin.ext_iff, hq, hl, hj, show qy.val - (y + 1) = j by omega, show y ≤ qy.val by omega]
          · simp [Fin.ext_iff, hq, hl, show ¬ y ≤ qy.val by omega]
    · exact (Toggles.refl d).congr fun qx qy => by simp [show ¬ y ≤ qy.val by omega]

end Sys2Proof.Machine
end

