-- ==== Sys2Proof/Laws/Memory.lean ====
section
/-! SUPPORT. Memory: a read after a write, runs of bytes, the whole-access check, and that every operation keeps the
canonical form, in which equal contents are equal data. -/

namespace Sys2Proof.Machine

theorem Memory.read_erase_same (m : Memory) (a : Nat) : Memory.read (Memory.erase m a) a = Memory.unlisted a := by
  induction m with
  | nil => rfl
  | cons c m ih =>
    obtain ⟨b, u⟩ := c
    by_cases h : b = a
    · simpa [Memory.erase, h] using ih
    · have h' : ¬ a = b := fun e => h e.symm
      simpa [Memory.erase, h, h', Memory.read] using ih

theorem Memory.read_erase_ne (m : Memory) {a b : Nat} (h : b ≠ a) :
    Memory.read (Memory.erase m a) b = Memory.read m b := by
  induction m with
  | nil => rfl
  | cons c m ih =>
    obtain ⟨d, u⟩ := c
    by_cases hd : d = a
    · subst hd
      simpa [Memory.erase, Memory.read, h] using ih
    · by_cases hb : b = d
      · simp [Memory.erase, Memory.read, hd, hb]
      · simpa [Memory.erase, Memory.read, hd, hb] using ih

theorem Memory.read_insert_ne (m : Memory) {a b : Nat} (w : Byte) (h : b ≠ a) :
    Memory.read (Memory.insert m a w) b = Memory.read m b := by
  induction m with
  | nil => simp [Memory.insert, Memory.read, h]
  | cons c m ih =>
    obtain ⟨d, u⟩ := c
    simp only [Memory.insert]
    split
    · simp [Memory.read, h]
    · simp [Memory.read, ih]

theorem Memory.read_insert_erase_same (m : Memory) (a : Nat) (w : Byte) :
    Memory.read (Memory.insert (Memory.erase m a) a w) a = w := by
  induction m with
  | nil => simp [Memory.erase, Memory.insert, Memory.read]
  | cons c m ih =>
    obtain ⟨d, u⟩ := c
    by_cases hd : d = a
    · simpa [Memory.erase, hd] using ih
    · have h' : ¬ a = d := fun e => hd e.symm
      simp only [Memory.erase, List.filter_cons] at ih ⊢
      simp only [bne_iff_ne, ne_eq, hd, not_false_eq_true, if_true, Memory.insert]
      split
      · simp [Memory.read]
      · simp [Memory.read, h', ih]

/-- A read after a write of one byte, at any address. -/
theorem Memory.read_set (m : Memory) (a b : Nat) (w : Byte) :
    Memory.read (Memory.set m a w) b = if b = a then w else Memory.read m b := by
  unfold Memory.set
  split
  · split
    · subst_vars; exact Memory.read_erase_same ..
    · exact Memory.read_erase_ne _ ‹_›
  · split
    · subst_vars; exact Memory.read_insert_erase_same ..
    · rw [Memory.read_insert_ne _ _ ‹_›, Memory.read_erase_ne _ ‹_›]

/-- A read after a write of one byte in memory (20_memory R52). -/
theorem Memory.read_write (m : Memory) (a b : Nat) (w : Byte) (ha : a < 0x1000) :
    Memory.read (Memory.write m a w) b = if b = a then w else Memory.read m b := by
  simp [Memory.write, ha, Memory.read_set]

/-- A write leaves every other address alone. -/
theorem Memory.read_write_ne (m : Memory) {a b : Nat} (w : Byte) (h : b ≠ a) :
    Memory.read (Memory.write m a w) b = Memory.read m b := by
  unfold Memory.write
  split
  · simp [Memory.read_set, h]
  · rfl

/-- A run of bytes leaves every address outside it alone. -/
theorem Memory.read_writeBytes_outside (m : Memory) (base : Nat) (ws : List Byte) (a : Nat)
    (h : a < base ∨ base + ws.length ≤ a) : Memory.read (Memory.writeBytes m base ws) a = Memory.read m a := by
  induction ws generalizing m base with
  | nil => rfl
  | cons w ws ih =>
    simp only [List.length_cons] at h
    rw [Memory.writeBytes, ih _ _ (by omega), Memory.read_write_ne _ _ (by omega)]

/-- A run of bytes in memory reads back byte by byte. -/
theorem Memory.read_writeBytes_inside (m : Memory) (base : Nat) (ws : List Byte) (k : Nat) (hk : k < ws.length)
    (hm : base + k < 0x1000) : Memory.read (Memory.writeBytes m base ws) (base + k) = ws[k] := by
  induction ws generalizing m base k with
  | nil => simp at hk
  | cons w ws ih =>
    cases k with
    | zero =>
      rw [Memory.writeBytes, Memory.read_writeBytes_outside _ _ _ _ (by omega)]
      simpa using Memory.read_write m base base w (by omega)
    | succ k =>
      have := ih (Memory.write m base w) (base + 1) k (by simpa using hk) (by omega)
      rw [Memory.writeBytes, show base + (k + 1) = base + 1 + k by omega, this]
      rfl

theorem Memory.wfFrom_mono {lo lo' : Nat} (h : lo' ≤ lo) : ∀ {m : Memory}, Memory.wfFrom lo m = true → Memory.wfFrom lo' m = true
  | [], _ => rfl
  | (a, w) :: m, hm => by
    simp only [Memory.wfFrom, Bool.and_eq_true, decide_eq_true_eq] at hm ⊢
    exact ⟨⟨⟨by omega, hm.1.1.2⟩, hm.1.2⟩, hm.2⟩

theorem Memory.wfFrom_erase (a : Nat) : ∀ {lo : Nat} {m : Memory}, Memory.wfFrom lo m = true → Memory.wfFrom lo (Memory.erase m a) = true
  | _, [], _ => rfl
  | lo, (b, w) :: m, hm => by
    simp only [Memory.wfFrom, Bool.and_eq_true, decide_eq_true_eq] at hm
    by_cases h : b = a
    · have := Memory.wfFrom_erase a (Memory.wfFrom_mono (show lo ≤ b + 1 by omega) hm.2)
      simpa [Memory.erase, h] using this
    · have := Memory.wfFrom_erase a hm.2
      simp only [Memory.erase] at this
      simp [Memory.erase, h, Memory.wfFrom, hm.1, this]

theorem Memory.wfFrom_insert {a : Nat} {w : Byte} (ha : a < 0x1000) (hw : w ≠ Memory.unlisted a) :
    ∀ {lo : Nat} {m : Memory}, lo ≤ a → Memory.wfFrom lo m = true → (∀ c ∈ m, c.1 ≠ a) →
      Memory.wfFrom lo (Memory.insert m a w) = true
  | lo, [], hlo, _, _ => by simp [Memory.insert, Memory.wfFrom, hlo, ha, hw]
  | lo, (b, u) :: m, hlo, hm, hne => by
    simp only [Memory.wfFrom, Bool.and_eq_true, decide_eq_true_eq] at hm
    have hb : b ≠ a := hne (b, u) (by simp)
    simp only [Memory.insert]
    split
    · simp only [Memory.wfFrom, Bool.and_eq_true, decide_eq_true_eq]
      exact ⟨⟨⟨hlo, ha⟩, hw⟩, ⟨⟨by omega, hm.1.1.2⟩, hm.1.2⟩, hm.2⟩
    · have := Memory.wfFrom_insert ha hw (show b + 1 ≤ a by omega) hm.2 fun c hc => hne c (by simp [hc])
      simp only [Memory.wfFrom, Bool.and_eq_true, decide_eq_true_eq]
      exact ⟨hm.1, this⟩

/-- Writing a byte keeps the canonical form. -/
theorem Memory.wf_write {m : Memory} (hm : Memory.wf m = true) (a : Nat) (w : Byte) :
    Memory.wf (Memory.write m a w) = true := by
  unfold Memory.write Memory.set
  split
  · split
    · exact Memory.wfFrom_erase a hm
    · exact Memory.wfFrom_insert ‹_› ‹_› (Nat.zero_le _) (Memory.wfFrom_erase a hm) (by simp [Memory.erase])
  · exact hm

/-- Writing a run of bytes keeps the canonical form. -/
theorem Memory.wf_writeBytes {m : Memory} (hm : Memory.wf m = true) (base : Nat) (ws : List Byte) :
    Memory.wf (Memory.writeBytes m base ws) = true := by
  induction ws generalizing m base with
  | nil => exact hm
  | cons w ws ih => exact ih (Memory.wf_write hm base w) _

theorem Memory.read_below_wfFrom : ∀ {lo : Nat} {m : Memory}, Memory.wfFrom lo m = true → ∀ {a : Nat}, a < lo →
    Memory.read m a = Memory.unlisted a
  | _, [], _, _, _ => rfl
  | lo, (b, w) :: m, hm, a, ha => by
    simp only [Memory.wfFrom, Bool.and_eq_true, decide_eq_true_eq] at hm
    have hab : ¬ a = b := by omega
    simpa [Memory.read, hab] using Memory.read_below_wfFrom hm.2 (show a < b + 1 by omega)

theorem Memory.ext_wfFrom : ∀ {lo : Nat} {m n : Memory}, Memory.wfFrom lo m = true → Memory.wfFrom lo n = true →
    (∀ a, Memory.read m a = Memory.read n a) → m = n
  | _, [], [], _, _, _ => rfl
  | _, [], (b, w) :: n, _, hn, h => by
    simp only [Memory.wfFrom, Bool.and_eq_true, decide_eq_true_eq] at hn
    exact absurd (by simpa [Memory.read] using (h b).symm) hn.1.2
  | _, (b, w) :: m, [], hm, _, h => by
    simp only [Memory.wfFrom, Bool.and_eq_true, decide_eq_true_eq] at hm
    exact absurd (by simpa [Memory.read] using h b) hm.1.2
  | lo, (b, w) :: m, (c, u) :: n, hm, hn, h => by
    simp only [Memory.wfFrom, Bool.and_eq_true, decide_eq_true_eq] at hm hn
    rcases Nat.lt_trichotomy b c with hbc | hbc | hbc
    · have hb := h b
      have hne : ¬ b = c := by omega
      simp only [Memory.read, if_true, hne, if_false] at hb
      rw [Memory.read_below_wfFrom hn.2 (show b < c + 1 by omega)] at hb
      exact absurd hb hm.1.2
    · subst hbc
      have hb := h b
      simp only [Memory.read, if_true] at hb
      subst hb
      have : m = n := Memory.ext_wfFrom hm.2 hn.2 fun a => by
        by_cases hab : a < b + 1
        · rw [Memory.read_below_wfFrom hm.2 hab, Memory.read_below_wfFrom hn.2 hab]
        · have hne : ¬ a = b := by omega
          simpa [Memory.read, hne] using h a
      rw [this]
    · have hc := h c
      have hne : ¬ c = b := by omega
      simp only [Memory.read, if_true, hne, if_false] at hc
      rw [Memory.read_below_wfFrom hm.2 (show c < b + 1 by omega)] at hc
      exact absurd hc.symm hn.1.2

/-- Two memories in canonical form with equal contents are equal data. -/
theorem Memory.ext {m n : Memory} (hm : Memory.wf m = true) (hn : Memory.wf n = true)
    (h : ∀ a, Memory.read m a = Memory.read n a) : m = n :=
  Memory.ext_wfFrom hm hn h

@[simp] theorem Memory.length_readBytes (m : Memory) (base k : Nat) : (Memory.readBytes m base k).length = k := by
  simp [Memory.readBytes]

/-- Byte `j` of a run that is read. -/
theorem Memory.getElem_readBytes (m : Memory) (base k j : Nat) (h : j < (Memory.readBytes m base k).length) :
    (Memory.readBytes m base k)[j] = Memory.read m (base + j) := by
  simp [Memory.readBytes]

/-- When an access is in range (20_memory R46). -/
theorem accessInRange_iff (base k : Nat) : accessInRange base k = true ↔ k = 0 ∨ base + k ≤ 0x1000 := by
  simp [accessInRange]

end Sys2Proof.Machine
end

