-- ==== Sys2Proof/Laws/State.lean ====
section
/-! SUPPORT. For each update of the state, what every field holds after it, and reading a register after each. -/

namespace Sys2Proof.Machine

@[simp] theorem setV_mem (s : State) (r : Reg) (w : Byte) : (setV s r w).mem = s.mem := rfl
@[simp] theorem setV_i (s : State) (r : Reg) (w : Byte) : (setV s r w).i = s.i := rfl
@[simp] theorem setV_pc (s : State) (r : Reg) (w : Byte) : (setV s r w).pc = s.pc := rfl
@[simp] theorem setV_stack (s : State) (r : Reg) (w : Byte) : (setV s r w).stack = s.stack := rfl
@[simp] theorem setV_dt (s : State) (r : Reg) (w : Byte) : (setV s r w).dt = s.dt := rfl
@[simp] theorem setV_st (s : State) (r : Reg) (w : Byte) : (setV s r w).st = s.st := rfl
@[simp] theorem setV_status (s : State) (r : Reg) (w : Byte) : (setV s r w).status = s.status := rfl
@[simp] theorem setV_fb (s : State) (r : Reg) (w : Byte) : (setV s r w).fb = s.fb := rfl
@[simp] theorem setV_bcdPartial (s : State) (r : Reg) (w : Byte) : (setV s r w).bcdPartial = s.bcdPartial := rfl
@[simp] theorem setV_stackLimit (s : State) (r : Reg) (w : Byte) : (setV s r w).stackLimit = s.stackLimit := rfl
@[simp] theorem setV_input (s : State) (r : Reg) (w : Byte) : (setV s r w).input = s.input := rfl
@[simp] theorem setV_pending (s : State) (r : Reg) (w : Byte) : (setV s r w).pending = s.pending := rfl
@[simp] theorem setV_steps (s : State) (r : Reg) (w : Byte) : (setV s r w).steps = s.steps := rfl
@[simp] theorem setV_loaded (s : State) (r : Reg) (w : Byte) : (setV s r w).loaded = s.loaded := rfl
@[simp] theorem setV_out (s : State) (r : Reg) (w : Byte) : (setV s r w).out = s.out := rfl

@[simp] theorem setPc_mem (s : State) (a : Word) : (setPc s a).mem = s.mem := rfl
@[simp] theorem setPc_v (s : State) (a : Word) : (setPc s a).v = s.v := rfl
@[simp] theorem setPc_i (s : State) (a : Word) : (setPc s a).i = s.i := rfl
@[simp] theorem setPc_pc (s : State) (a : Word) : (setPc s a).pc = a := rfl
@[simp] theorem setPc_stack (s : State) (a : Word) : (setPc s a).stack = s.stack := rfl
@[simp] theorem setPc_dt (s : State) (a : Word) : (setPc s a).dt = s.dt := rfl
@[simp] theorem setPc_st (s : State) (a : Word) : (setPc s a).st = s.st := rfl
@[simp] theorem setPc_status (s : State) (a : Word) : (setPc s a).status = s.status := rfl
@[simp] theorem setPc_fb (s : State) (a : Word) : (setPc s a).fb = s.fb := rfl
@[simp] theorem setPc_bcdPartial (s : State) (a : Word) : (setPc s a).bcdPartial = s.bcdPartial := rfl
@[simp] theorem setPc_stackLimit (s : State) (a : Word) : (setPc s a).stackLimit = s.stackLimit := rfl
@[simp] theorem setPc_input (s : State) (a : Word) : (setPc s a).input = s.input := rfl
@[simp] theorem setPc_pending (s : State) (a : Word) : (setPc s a).pending = s.pending := rfl
@[simp] theorem setPc_steps (s : State) (a : Word) : (setPc s a).steps = s.steps := rfl
@[simp] theorem setPc_loaded (s : State) (a : Word) : (setPc s a).loaded = s.loaded := rfl
@[simp] theorem setPc_out (s : State) (a : Word) : (setPc s a).out = s.out := rfl

@[simp] theorem advancePc_mem (s : State) : (advancePc s).mem = s.mem := rfl
@[simp] theorem advancePc_v (s : State) : (advancePc s).v = s.v := rfl
@[simp] theorem advancePc_i (s : State) : (advancePc s).i = s.i := rfl
@[simp] theorem advancePc_pc (s : State) : (advancePc s).pc = s.pc + 2 := rfl
@[simp] theorem advancePc_stack (s : State) : (advancePc s).stack = s.stack := rfl
@[simp] theorem advancePc_dt (s : State) : (advancePc s).dt = s.dt := rfl
@[simp] theorem advancePc_st (s : State) : (advancePc s).st = s.st := rfl
@[simp] theorem advancePc_status (s : State) : (advancePc s).status = s.status := rfl
@[simp] theorem advancePc_fb (s : State) : (advancePc s).fb = s.fb := rfl
@[simp] theorem advancePc_bcdPartial (s : State) : (advancePc s).bcdPartial = s.bcdPartial := rfl
@[simp] theorem advancePc_stackLimit (s : State) : (advancePc s).stackLimit = s.stackLimit := rfl
@[simp] theorem advancePc_input (s : State) : (advancePc s).input = s.input := rfl
@[simp] theorem advancePc_pending (s : State) : (advancePc s).pending = s.pending := rfl
@[simp] theorem advancePc_steps (s : State) : (advancePc s).steps = s.steps := rfl
@[simp] theorem advancePc_loaded (s : State) : (advancePc s).loaded = s.loaded := rfl
@[simp] theorem advancePc_out (s : State) : (advancePc s).out = s.out := rfl

@[simp] theorem skipIf_mem (c : Bool) (s : State) : (skipIf c s).mem = s.mem := rfl
@[simp] theorem skipIf_v (c : Bool) (s : State) : (skipIf c s).v = s.v := rfl
@[simp] theorem skipIf_i (c : Bool) (s : State) : (skipIf c s).i = s.i := rfl
@[simp] theorem skipIf_pc (c : Bool) (s : State) : (skipIf c s).pc = if c then s.pc + 2 else s.pc := rfl
@[simp] theorem skipIf_stack (c : Bool) (s : State) : (skipIf c s).stack = s.stack := rfl
@[simp] theorem skipIf_dt (c : Bool) (s : State) : (skipIf c s).dt = s.dt := rfl
@[simp] theorem skipIf_st (c : Bool) (s : State) : (skipIf c s).st = s.st := rfl
@[simp] theorem skipIf_status (c : Bool) (s : State) : (skipIf c s).status = s.status := rfl
@[simp] theorem skipIf_fb (c : Bool) (s : State) : (skipIf c s).fb = s.fb := rfl
@[simp] theorem skipIf_bcdPartial (c : Bool) (s : State) : (skipIf c s).bcdPartial = s.bcdPartial := rfl
@[simp] theorem skipIf_stackLimit (c : Bool) (s : State) : (skipIf c s).stackLimit = s.stackLimit := rfl
@[simp] theorem skipIf_input (c : Bool) (s : State) : (skipIf c s).input = s.input := rfl
@[simp] theorem skipIf_pending (c : Bool) (s : State) : (skipIf c s).pending = s.pending := rfl
@[simp] theorem skipIf_steps (c : Bool) (s : State) : (skipIf c s).steps = s.steps := rfl
@[simp] theorem skipIf_loaded (c : Bool) (s : State) : (skipIf c s).loaded = s.loaded := rfl
@[simp] theorem skipIf_out (c : Bool) (s : State) : (skipIf c s).out = s.out := rfl

@[simp] theorem setI_mem (s : State) (w : Nat) : (setI s w).mem = s.mem := rfl
@[simp] theorem setI_v (s : State) (w : Nat) : (setI s w).v = s.v := rfl
@[simp] theorem setI_i (s : State) (w : Nat) : (setI s w).i = w := rfl
@[simp] theorem setI_pc (s : State) (w : Nat) : (setI s w).pc = s.pc := rfl
@[simp] theorem setI_stack (s : State) (w : Nat) : (setI s w).stack = s.stack := rfl
@[simp] theorem setI_dt (s : State) (w : Nat) : (setI s w).dt = s.dt := rfl
@[simp] theorem setI_st (s : State) (w : Nat) : (setI s w).st = s.st := rfl
@[simp] theorem setI_status (s : State) (w : Nat) : (setI s w).status = s.status := rfl
@[simp] theorem setI_fb (s : State) (w : Nat) : (setI s w).fb = s.fb := rfl
@[simp] theorem setI_bcdPartial (s : State) (w : Nat) : (setI s w).bcdPartial = s.bcdPartial := rfl
@[simp] theorem setI_stackLimit (s : State) (w : Nat) : (setI s w).stackLimit = s.stackLimit := rfl
@[simp] theorem setI_input (s : State) (w : Nat) : (setI s w).input = s.input := rfl
@[simp] theorem setI_pending (s : State) (w : Nat) : (setI s w).pending = s.pending := rfl
@[simp] theorem setI_steps (s : State) (w : Nat) : (setI s w).steps = s.steps := rfl
@[simp] theorem setI_loaded (s : State) (w : Nat) : (setI s w).loaded = s.loaded := rfl
@[simp] theorem setI_out (s : State) (w : Nat) : (setI s w).out = s.out := rfl

@[simp] theorem push_mem (s : State) (a : Word) : (push s a).mem = s.mem := rfl
@[simp] theorem push_v (s : State) (a : Word) : (push s a).v = s.v := rfl
@[simp] theorem push_i (s : State) (a : Word) : (push s a).i = s.i := rfl
@[simp] theorem push_pc (s : State) (a : Word) : (push s a).pc = s.pc := rfl
@[simp] theorem push_stack (s : State) (a : Word) : (push s a).stack = s.stack ++ [a] := rfl
@[simp] theorem push_dt (s : State) (a : Word) : (push s a).dt = s.dt := rfl
@[simp] theorem push_st (s : State) (a : Word) : (push s a).st = s.st := rfl
@[simp] theorem push_status (s : State) (a : Word) : (push s a).status = s.status := rfl
@[simp] theorem push_fb (s : State) (a : Word) : (push s a).fb = s.fb := rfl
@[simp] theorem push_bcdPartial (s : State) (a : Word) : (push s a).bcdPartial = s.bcdPartial := rfl
@[simp] theorem push_stackLimit (s : State) (a : Word) : (push s a).stackLimit = s.stackLimit := rfl
@[simp] theorem push_input (s : State) (a : Word) : (push s a).input = s.input := rfl
@[simp] theorem push_pending (s : State) (a : Word) : (push s a).pending = s.pending := rfl
@[simp] theorem push_steps (s : State) (a : Word) : (push s a).steps = s.steps := rfl
@[simp] theorem push_loaded (s : State) (a : Word) : (push s a).loaded = s.loaded := rfl
@[simp] theorem push_out (s : State) (a : Word) : (push s a).out = s.out := rfl

@[simp] theorem emit_mem (e : Event) (s : State) : (emit e s).mem = s.mem := rfl
@[simp] theorem emit_v (e : Event) (s : State) : (emit e s).v = s.v := rfl
@[simp] theorem emit_i (e : Event) (s : State) : (emit e s).i = s.i := rfl
@[simp] theorem emit_pc (e : Event) (s : State) : (emit e s).pc = s.pc := rfl
@[simp] theorem emit_stack (e : Event) (s : State) : (emit e s).stack = s.stack := rfl
@[simp] theorem emit_dt (e : Event) (s : State) : (emit e s).dt = s.dt := rfl
@[simp] theorem emit_st (e : Event) (s : State) : (emit e s).st = s.st := rfl
@[simp] theorem emit_status (e : Event) (s : State) : (emit e s).status = s.status := rfl
@[simp] theorem emit_fb (e : Event) (s : State) : (emit e s).fb = s.fb := rfl
@[simp] theorem emit_bcdPartial (e : Event) (s : State) : (emit e s).bcdPartial = s.bcdPartial := rfl
@[simp] theorem emit_stackLimit (e : Event) (s : State) : (emit e s).stackLimit = s.stackLimit := rfl
@[simp] theorem emit_input (e : Event) (s : State) : (emit e s).input = s.input := rfl
@[simp] theorem emit_pending (e : Event) (s : State) : (emit e s).pending = s.pending := rfl
@[simp] theorem emit_steps (e : Event) (s : State) : (emit e s).steps = s.steps := rfl
@[simp] theorem emit_loaded (e : Event) (s : State) : (emit e s).loaded = s.loaded := rfl
@[simp] theorem emit_out (e : Event) (s : State) : (emit e s).out = s.out ++ [e] := rfl

@[simp] theorem enterFaulted_mem (r : FaultRecord) (s : State) : (enterFaulted r s).mem = s.mem := rfl
@[simp] theorem enterFaulted_v (r : FaultRecord) (s : State) : (enterFaulted r s).v = s.v := rfl
@[simp] theorem enterFaulted_i (r : FaultRecord) (s : State) : (enterFaulted r s).i = s.i := rfl
@[simp] theorem enterFaulted_pc (r : FaultRecord) (s : State) : (enterFaulted r s).pc = s.pc := rfl
@[simp] theorem enterFaulted_stack (r : FaultRecord) (s : State) : (enterFaulted r s).stack = s.stack := rfl
@[simp] theorem enterFaulted_dt (r : FaultRecord) (s : State) : (enterFaulted r s).dt = s.dt := rfl
@[simp] theorem enterFaulted_st (r : FaultRecord) (s : State) : (enterFaulted r s).st = s.st := rfl
@[simp] theorem enterFaulted_status (r : FaultRecord) (s : State) : (enterFaulted r s).status = .faulted r := rfl
@[simp] theorem enterFaulted_fb (r : FaultRecord) (s : State) : (enterFaulted r s).fb = s.fb := rfl
@[simp] theorem enterFaulted_bcdPartial (r : FaultRecord) (s : State) : (enterFaulted r s).bcdPartial = s.bcdPartial := rfl
@[simp] theorem enterFaulted_stackLimit (r : FaultRecord) (s : State) : (enterFaulted r s).stackLimit = s.stackLimit := rfl
@[simp] theorem enterFaulted_input (r : FaultRecord) (s : State) : (enterFaulted r s).input = s.input := rfl
@[simp] theorem enterFaulted_pending (r : FaultRecord) (s : State) : (enterFaulted r s).pending = s.pending := rfl
@[simp] theorem enterFaulted_steps (r : FaultRecord) (s : State) : (enterFaulted r s).steps = s.steps := rfl
@[simp] theorem enterFaulted_loaded (r : FaultRecord) (s : State) : (enterFaulted r s).loaded = s.loaded := rfl
@[simp] theorem enterFaulted_out (r : FaultRecord) (s : State) : (enterFaulted r s).out = s.out := rfl

@[simp] theorem setFlag_mem (s : State) (c : Bool) : (setFlag s c).mem = s.mem := rfl
@[simp] theorem setFlag_i (s : State) (c : Bool) : (setFlag s c).i = s.i := rfl
@[simp] theorem setFlag_pc (s : State) (c : Bool) : (setFlag s c).pc = s.pc := rfl
@[simp] theorem setFlag_stack (s : State) (c : Bool) : (setFlag s c).stack = s.stack := rfl
@[simp] theorem setFlag_dt (s : State) (c : Bool) : (setFlag s c).dt = s.dt := rfl
@[simp] theorem setFlag_st (s : State) (c : Bool) : (setFlag s c).st = s.st := rfl
@[simp] theorem setFlag_status (s : State) (c : Bool) : (setFlag s c).status = s.status := rfl
@[simp] theorem setFlag_fb (s : State) (c : Bool) : (setFlag s c).fb = s.fb := rfl
@[simp] theorem setFlag_bcdPartial (s : State) (c : Bool) : (setFlag s c).bcdPartial = s.bcdPartial := rfl
@[simp] theorem setFlag_stackLimit (s : State) (c : Bool) : (setFlag s c).stackLimit = s.stackLimit := rfl
@[simp] theorem setFlag_input (s : State) (c : Bool) : (setFlag s c).input = s.input := rfl
@[simp] theorem setFlag_pending (s : State) (c : Bool) : (setFlag s c).pending = s.pending := rfl
@[simp] theorem setFlag_steps (s : State) (c : Bool) : (setFlag s c).steps = s.steps := rfl
@[simp] theorem setFlag_loaded (s : State) (c : Bool) : (setFlag s c).loaded = s.loaded := rfl
@[simp] theorem setFlag_out (s : State) (c : Bool) : (setFlag s c).out = s.out := rfl

@[simp] theorem loadRegs_mem (s : State) (x : Reg) : (loadRegs s x).mem = s.mem := rfl
@[simp] theorem loadRegs_i (s : State) (x : Reg) : (loadRegs s x).i = s.i := rfl
@[simp] theorem loadRegs_pc (s : State) (x : Reg) : (loadRegs s x).pc = s.pc := rfl
@[simp] theorem loadRegs_stack (s : State) (x : Reg) : (loadRegs s x).stack = s.stack := rfl
@[simp] theorem loadRegs_dt (s : State) (x : Reg) : (loadRegs s x).dt = s.dt := rfl
@[simp] theorem loadRegs_st (s : State) (x : Reg) : (loadRegs s x).st = s.st := rfl
@[simp] theorem loadRegs_status (s : State) (x : Reg) : (loadRegs s x).status = s.status := rfl
@[simp] theorem loadRegs_fb (s : State) (x : Reg) : (loadRegs s x).fb = s.fb := rfl
@[simp] theorem loadRegs_bcdPartial (s : State) (x : Reg) : (loadRegs s x).bcdPartial = s.bcdPartial := rfl
@[simp] theorem loadRegs_stackLimit (s : State) (x : Reg) : (loadRegs s x).stackLimit = s.stackLimit := rfl
@[simp] theorem loadRegs_input (s : State) (x : Reg) : (loadRegs s x).input = s.input := rfl
@[simp] theorem loadRegs_pending (s : State) (x : Reg) : (loadRegs s x).pending = s.pending := rfl
@[simp] theorem loadRegs_steps (s : State) (x : Reg) : (loadRegs s x).steps = s.steps := rfl
@[simp] theorem loadRegs_loaded (s : State) (x : Reg) : (loadRegs s x).loaded = s.loaded := rfl
@[simp] theorem loadRegs_out (s : State) (x : Reg) : (loadRegs s x).out = s.out := rfl

@[simp] theorem sampleInput_mem (s : State) : (sampleInput s).mem = s.mem := rfl
@[simp] theorem sampleInput_v (s : State) : (sampleInput s).v = s.v := rfl
@[simp] theorem sampleInput_i (s : State) : (sampleInput s).i = s.i := rfl
@[simp] theorem sampleInput_pc (s : State) : (sampleInput s).pc = s.pc := rfl
@[simp] theorem sampleInput_stack (s : State) : (sampleInput s).stack = s.stack := rfl
@[simp] theorem sampleInput_dt (s : State) : (sampleInput s).dt = s.dt := rfl
@[simp] theorem sampleInput_st (s : State) : (sampleInput s).st = s.st := rfl
@[simp] theorem sampleInput_status (s : State) : (sampleInput s).status = s.status := rfl
@[simp] theorem sampleInput_fb (s : State) : (sampleInput s).fb = s.fb := rfl
@[simp] theorem sampleInput_bcdPartial (s : State) : (sampleInput s).bcdPartial = s.bcdPartial := rfl
@[simp] theorem sampleInput_stackLimit (s : State) : (sampleInput s).stackLimit = s.stackLimit := rfl
@[simp] theorem sampleInput_pending (s : State) : (sampleInput s).pending = s.pending.tail := rfl
@[simp] theorem sampleInput_steps (s : State) : (sampleInput s).steps = s.steps + 1 := rfl
@[simp] theorem sampleInput_loaded (s : State) : (sampleInput s).loaded = s.loaded := rfl
@[simp] theorem sampleInput_out (s : State) : (sampleInput s).out = s.out := rfl

@[simp] theorem placeWord_v (s : State) (w : Word) : (placeWord s w).v = s.v := rfl
@[simp] theorem placeWord_i (s : State) (w : Word) : (placeWord s w).i = s.i := rfl
@[simp] theorem placeWord_pc (s : State) (w : Word) : (placeWord s w).pc = s.pc := rfl
@[simp] theorem placeWord_stack (s : State) (w : Word) : (placeWord s w).stack = s.stack := rfl
@[simp] theorem placeWord_dt (s : State) (w : Word) : (placeWord s w).dt = s.dt := rfl
@[simp] theorem placeWord_st (s : State) (w : Word) : (placeWord s w).st = s.st := rfl
@[simp] theorem placeWord_status (s : State) (w : Word) : (placeWord s w).status = s.status := rfl
@[simp] theorem placeWord_fb (s : State) (w : Word) : (placeWord s w).fb = s.fb := rfl
@[simp] theorem placeWord_bcdPartial (s : State) (w : Word) : (placeWord s w).bcdPartial = s.bcdPartial := rfl
@[simp] theorem placeWord_stackLimit (s : State) (w : Word) : (placeWord s w).stackLimit = s.stackLimit := rfl
@[simp] theorem placeWord_input (s : State) (w : Word) : (placeWord s w).input = s.input := rfl
@[simp] theorem placeWord_pending (s : State) (w : Word) : (placeWord s w).pending = s.pending := rfl
@[simp] theorem placeWord_steps (s : State) (w : Word) : (placeWord s w).steps = s.steps := rfl
@[simp] theorem placeWord_loaded (s : State) (w : Word) : (placeWord s w).loaded = s.loaded := rfl
@[simp] theorem placeWord_out (s : State) (w : Word) : (placeWord s w).out = s.out := rfl

@[simp] theorem getV_setV_same (s : State) (r : Reg) (w : Byte) : getV (setV s r w) r = w := by
  simp [getV, setV, Vector.get_eq_getElem]

theorem getV_setV_ne (s : State) {r q : Reg} (w : Byte) (h : q ≠ r) : getV (setV s r w) q = getV s q := by
  have h' : r.val ≠ q.val := fun e => h (Fin.ext e.symm)
  simp [getV, setV, Vector.get_eq_getElem, h']

/-- Reading any register after a register write. -/
theorem getV_setV (s : State) (r q : Reg) (w : Byte) :
    getV (setV s r w) q = if q = r then w else getV s q := by
  split
  · subst_vars; simp
  · exact getV_setV_ne s w ‹_›

/-- Reading any register after a flag write. -/
theorem getV_setFlag (s : State) (c : Bool) (q : Reg) :
    getV (setFlag s c) q = if q = vf then flagByte c else getV s q := getV_setV ..

/-- Reading any register after a load of V0..Vx. -/
theorem getV_loadRegs (s : State) (x q : Reg) :
    getV (loadRegs s x) q = if q ≤ x then Memory.read s.mem (s.i + q.val) else getV s q := by
  simp [getV, loadRegs, Vector.get_eq_getElem]

@[simp] theorem getV_setPc (s : State) (a : Word) (q : Reg) : getV (setPc s a) q = getV s q := rfl
@[simp] theorem getV_advancePc (s : State) (q : Reg) : getV (advancePc s) q = getV s q := rfl
@[simp] theorem getV_skipIf (c : Bool) (s : State) (q : Reg) : getV (skipIf c s) q = getV s q := rfl
@[simp] theorem getV_setI (s : State) (w : Nat) (q : Reg) : getV (setI s w) q = getV s q := rfl
@[simp] theorem getV_push (s : State) (a : Word) (q : Reg) : getV (push s a) q = getV s q := rfl
@[simp] theorem getV_emit (e : Event) (s : State) (q : Reg) : getV (emit e s) q = getV s q := rfl
@[simp] theorem getV_enterFaulted (r : FaultRecord) (s : State) (q : Reg) : getV (enterFaulted r s) q = getV s q := rfl
@[simp] theorem getV_sampleInput (s : State) (q : Reg) : getV (sampleInput s) q = getV s q := rfl
@[simp] theorem getV_placeWord (s : State) (w : Word) (q : Reg) : getV (placeWord s w) q = getV s q := rfl
@[simp] theorem getV_with_mem (s : State) (z : Memory) (q : Reg) : getV { s with mem := z } q = getV s q := rfl
@[simp] theorem getV_with_i (s : State) (z : Nat) (q : Reg) : getV { s with i := z } q = getV s q := rfl
@[simp] theorem getV_with_pc (s : State) (z : Word) (q : Reg) : getV { s with pc := z } q = getV s q := rfl
@[simp] theorem getV_with_stack (s : State) (z : List Word) (q : Reg) : getV { s with stack := z } q = getV s q := rfl
@[simp] theorem getV_with_dt (s : State) (z : Timer) (q : Reg) : getV { s with dt := z } q = getV s q := rfl
@[simp] theorem getV_with_st (s : State) (z : Timer) (q : Reg) : getV { s with st := z } q = getV s q := rfl
@[simp] theorem getV_with_status (s : State) (z : RunStatus) (q : Reg) : getV { s with status := z } q = getV s q := rfl
@[simp] theorem getV_with_fb (s : State) (z : Framebuffer) (q : Reg) : getV { s with fb := z } q = getV s q := rfl
@[simp] theorem getV_with_out (s : State) (z : List Event) (q : Reg) : getV { s with out := z } q = getV s q := rfl
@[simp] theorem getV_with_input (s : State) (z : StepInput) (q : Reg) : getV { s with input := z } q = getV s q := rfl
@[simp] theorem getV_with_loaded (s : State) (z : Bool) (q : Reg) : getV { s with loaded := z } q = getV s q := rfl

/-- The registers read are the state's registers: two states with equal reads have equal register files. -/
theorem v_ext {s t : State} (h : ∀ r, getV s r = getV t r) : s.v = t.v := by
  apply Vector.ext
  intro k hk
  simpa [getV, Vector.get_eq_getElem] using h ⟨k, hk⟩

end Sys2Proof.Machine
end

