-- ==== Sys2Proof/Laws/Ops.lean ====
section
/-! SUPPORT. For each shared operation one lemma that says everything it can do, and its frame. -/

namespace Sys2Proof.Machine

/-! ### The whole-access check and the stack -/

theorem withAccess_inRange {base k : Nat} (h : accessInRange base k = true) (s : State) (body : Result) :
    withAccess base k s body = body := by
  simp [withAccess, h]

theorem withAccess_outOfRange {base k : Nat} (h : ¬ accessInRange base k = true) (s : State) (body : Result) :
    withAccess base k s body = raise (.memoryBounds (fetchAddr s) (firstOutOfRange base)) s := by
  simp [withAccess, h]

/-- A checked access that completes was in range and did what its body does. -/
theorem withAccess_next {base k : Nat} {s t : State} {body : Result} (h : withAccess base k s body = .next t) :
    accessInRange base k = true ∧ body = .next t := by
  unfold withAccess at h
  split at h
  · exact ⟨‹_›, h⟩
  · cases h

/-- A stack with `a` on top pops `a`. -/
theorem pop_append {s : State} {below : List Word} {a : Word} (h : s.stack = below ++ [a]) :
    pop s = some (a, { s with stack := below }) := by
  simp [pop, h]

theorem pop_nil {s : State} (h : s.stack = []) : pop s = none := by
  simp [pop, h]

/-- The empty stack and a stack with a top are all the stacks there are. -/
theorem stack_cases (s : State) : s.stack = [] ∨ ∃ below a, s.stack = below ++ [a] := by
  rcases List.eq_nil_or_concat s.stack with h | ⟨l, a, h⟩
  · exact .inl h
  · exact .inr ⟨l, a, by simpa using h⟩

/-! ### Registers to and from memory -/

@[simp] theorem length_regsUpTo (s : State) (x : Reg) : (regsUpTo s x).length = x.val + 1 := by
  simp [regsUpTo]

theorem getElem_regsUpTo (s : State) (x r : Reg) (h : r.val < (regsUpTo s x).length) :
    (regsUpTo s x)[r.val] = getV s r := by
  simp [regsUpTo, getV, Vector.get_eq_getElem]

/-! ### Frames -/

theorem keeps_setV {s : State} {r : Reg} {w : Byte} {regs : List Reg} (h : r ∈ regs) :
    Keeps regs nowhere [] s (setV s r w) where
  regs _ hq := getV_setV_ne s w fun e => hq (e ▸ h)
  memory _ _ := rfl
  pc _ := rfl
  index _ := rfl
  stack _ := rfl
  delay _ := rfl
  sound _ := rfl
  screen _ := rfl
  events _ := rfl
  status := rfl
  bcdPartial := rfl
  stackLimit := rfl
  input := rfl
  pending := rfl
  steps := rfl
  loaded := rfl

/-- A flag write and then a register write. -/
theorem keeps_setFlag_setV {s : State} {c : Bool} {r : Reg} {w : Byte} {regs : List Reg} (h : r ∈ regs)
    (hf : vf ∈ regs) : Keeps regs nowhere [] s (setV (setFlag s c) r w) := by
  have first := keeps_setV (s := s) (w := flagByte c) hf
  have second := keeps_setV (s := setFlag s c) (w := w) h
  exact { second with regs := fun q hq => (second.regs q hq).trans (first.regs q hq) }

/-- A run of bytes written to memory. -/
theorem keeps_writeBytes {s : State} {base : Nat} {ws : List Byte} :
    Keeps [] (span base ws.length) [] s { s with mem := Memory.writeBytes s.mem base ws } where
  regs _ _ := rfl
  memory a ha := Memory.read_writeBytes_outside _ _ _ _ (by simp only [span] at ha; omega)
  pc _ := rfl
  index _ := rfl
  stack _ := rfl
  delay _ := rfl
  sound _ := rfl
  screen _ := rfl
  events _ := rfl
  status := rfl
  bcdPartial := rfl
  stackLimit := rfl
  input := rfl
  pending := rfl
  steps := rfl
  loaded := rfl

/-- Everything a run of bytes written inside memory leaves, byte by byte (20_memory R45, R48). -/
theorem read_writeBytes_eq_patched (m : Memory) {base : Nat} {ws : List Byte} (h : ws = [] ∨ base + ws.length ≤ 0x1000)
    (a : Nat) : Memory.read (Memory.writeBytes m base ws) a = patched m base ws a := by
  unfold patched
  split
  · obtain ⟨k, rfl⟩ := Nat.exists_eq_add_of_le (by omega : base ≤ a)
    have hk : k < ws.length := by omega
    have hm : base + ws.length ≤ 0x1000 := h.resolve_left (by rintro rfl; simp at hk)
    simp [Memory.read_writeBytes_inside m base ws k hk (by omega), List.getD, hk]
  · exact Memory.read_writeBytes_outside m base ws a (by omega)

/-! ### The Display -/

/-- Everything `draw(x, y, rows)` does (44 R115): it toggles exactly the pixels the sprite covers, and collides iff one of
them was 1. -/
theorem toggles_drawSprite (fb : Framebuffer) (x y : Byte) (rows : List Byte) :
    Toggles (fun px py => covers x y rows px.val py.val) ⟨fb, false⟩ (drawSprite fb x y rows) :=
  toggles_drawRows ..

/-! ### Time and inputs -/

theorem le_laterTime (t u : Time) : t ≤ laterTime t u := by
  unfold laterTime
  split
  · assumption
  · exact le_refl t

/-- The time of a step is not before the last one (43 R105). -/
theorem input_now_sampleInput (s : State) : s.input.now ≤ (sampleInput s).input.now := le_laterTime ..

/-- A key instruction either faults on its key number or asks for the key and skips (44 R124–R126). -/
theorem keySkip_cases (x : Reg) (take : Bool → Bool) (s : State) :
    (15 < (getV s x).toNat ∧ keySkip x take s = raise (.keyOutOfRange (fetchAddr s) (getV s x)) s) ∨
    ((getV s x).toNat ≤ 15 ∧ keySkip x take s = .next (skipIf (take (isPressed s (getV s x)))
      (emit (.keyQuery (getV s x) (isPressed s (getV s x))) s))) := by
  unfold keySkip
  by_cases h : 15 < (getV s x).toNat
  · exact .inl ⟨h, by simp [h]⟩
  · exact .inr ⟨by omega, by simp [h]⟩

/-! ### The step -/

/-- What a completed step did (30 R57): a running core fetched and decoded an instruction, whose meaning gave the state. -/
theorem step_next {s t : State} (h : step s = .next t) :
    s.status = .running ∧ accessInRange s.pc.toNat 2 = true ∧
      ∃ i, decode (fetchWord s) = .ok i ∧ exec i (advancePc (sampleInput s)) = .next t := by
  unfold step beginStep fetchDecode at h
  cases hs : s.status with
  | running =>
    rw [hs] at h
    simp only at h
    split at h
    · rename_i hb
      split at hb
      · split at hb
        · cases hb
          exact ⟨rfl, ‹_›, _, ‹_›, h⟩
        · cases hb
      · cases hb
    · cases h
    · cases h
  | closed => rw [hs] at h; cases h
  | faulted r => rw [hs] at h; cases h

end Sys2Proof.Machine
end

