-- ==== Sys2Proof/Laws/PerInstr.lean ====
section
/-! SUPPORT. The statement made per instruction: an instruction's encoding lies in its row of 30_encoding R61. -/

namespace Sys2Proof

theorem toNat_and_n1 (w : Word) : (w &&& 0xF000#16).toNat = w.toNat / 0x1000 * 0x1000 := by
  have h : w &&& 0xF000#16 = (w >>> 12) <<< 12 := by
    ext i hi
    interval_cases i <;> simp
  rw [h]
  simp only [BitVec.toNat_shiftLeft, BitVec.toNat_ushiftRight, Nat.shiftRight_eq_div_pow, Nat.shiftLeft_eq]
  omega

/-- A mask of R61 that keeps the family nibble and the low `k` bits. -/
theorem toNat_and_n1_low {k : Nat} (hk : k ≤ 8) (w : Word) :
    (w &&& BitVec.ofNat 16 (0xF000 + (2 ^ k - 1))).toNat = w.toNat / 0x1000 * 0x1000 + w.toNat % 2 ^ k := by
  have low : (w &&& BitVec.ofNat 16 (2 ^ k - 1)).toNat = w.toNat % 2 ^ k := by
    have : 2 ^ k ≤ 2 ^ 8 := Nat.pow_le_pow_right (by decide) hk
    rw [BitVec.toNat_and, BitVec.toNat_ofNat, Nat.mod_eq_of_lt (by omega), Nat.and_two_pow_sub_one_eq_mod]
  have parts : w &&& BitVec.ofNat 16 (0xF000 + (2 ^ k - 1)) =
      (w &&& 0xF000#16) ||| (w &&& BitVec.ofNat 16 (2 ^ k - 1)) := by
    rw [← BitVec.and_or_distrib_left]
    congr 1
    interval_cases k <;> rfl
  have small : w.toNat % 2 ^ k < 2 ^ 12 :=
    lt_of_lt_of_le (Nat.mod_lt _ (by positivity)) (Nat.pow_le_pow_right (by decide) (by omega))
  rw [parts, BitVec.toNat_or, toNat_and_n1, low, show 0x1000 = 2 ^ 12 from rfl, ← Nat.shiftLeft_eq,
    ← Nat.shiftLeft_add_eq_or_of_lt small]

/-- When a word matches a row that fixes the family nibble. -/
theorem matches_n1 (p w : Word) : Row.matches ⟨p, 0xF000⟩ w = true ↔ w.toNat / 0x1000 * 0x1000 = p.toNat := by
  rw [Row.matches, beq_iff_eq, ← BitVec.toNat_inj, ← toNat_and_n1]; rfl

/-- When a word matches a row that fixes the family nibble and the last nibble. -/
theorem matches_n1_n4 (p w : Word) :
    Row.matches ⟨p, 0xF00F⟩ w = true ↔ w.toNat / 0x1000 * 0x1000 + w.toNat % 0x10 = p.toNat := by
  rw [Row.matches, beq_iff_eq, ← BitVec.toNat_inj]
  exact Eq.congr_left (toNat_and_n1_low (k := 4) (by decide) w)

/-- When a word matches a row that fixes the family nibble and the low byte. -/
theorem matches_n1_nn (p w : Word) :
    Row.matches ⟨p, 0xF0FF⟩ w = true ↔ w.toNat / 0x1000 * 0x1000 + w.toNat % 0x100 = p.toNat := by
  rw [Row.matches, beq_iff_eq, ← BitVec.toNat_inj]
  exact Eq.congr_left (toNat_and_n1_low (k := 8) (by decide) w)

end Sys2Proof

namespace Sys2Proof.Laws.EncodesInRow

/-- The word of `i` matches `i`'s row, and the row is one of the table's (30_encoding R61). -/
def Statement (i : Instr) : Prop := row i ∈ rows ∧ (row i).matches (encode i) = true

theorem matches_wordNNN {n1 : Nat} (h : n1 < 16) (nnn : Addr) :
    Row.matches ⟨.ofNat 16 (n1 * 0x1000), 0xF000⟩ (wordNNN n1 nnn) = true := by
  rw [matches_n1, toNat_wordNNN h, BitVec.toNat_ofNat]; omega

theorem matches_wordXNN {n1 : Nat} (h : n1 < 16) (x : Reg) (nn : Byte) :
    Row.matches ⟨.ofNat 16 (n1 * 0x1000), 0xF000⟩ (wordXNN n1 x nn) = true := by
  rw [matches_n1, toNat_wordXNN h, BitVec.toNat_ofNat]; omega

theorem matches_selectorNN {n1 : Nat} (h : n1 < 16) (x : Reg) (nn : Byte) :
    Row.matches ⟨.ofNat 16 (n1 * 0x1000 + nn.toNat), 0xF0FF⟩ (wordXNN n1 x nn) = true := by
  rw [matches_n1_nn, toNat_wordXNN h, BitVec.toNat_ofNat]; omega

theorem matches_wordXYN {n1 : Nat} (h : n1 < 16) (x y : Reg) (n : Nibble) :
    Row.matches ⟨.ofNat 16 (n1 * 0x1000), 0xF000⟩ (wordXYN n1 x y n) = true := by
  rw [matches_n1, toNat_wordXYN h, BitVec.toNat_ofNat]; omega

theorem matches_selectorN {n1 : Nat} (h : n1 < 16) (x y : Reg) (n : Nibble) :
    Row.matches ⟨.ofNat 16 (n1 * 0x1000 + n.toNat), 0xF00F⟩ (wordXYN n1 x y n) = true := by
  rw [matches_n1_n4, toNat_wordXYN h, BitVec.toNat_ofNat]; omega

theorem cls : Statement .cls := ⟨by decide, by decide⟩
theorem ret : Statement .ret := ⟨by decide, by decide⟩
theorem jp (nnn : Addr) : Statement (.jp nnn) := ⟨by simp [row, rows], matches_wordNNN (n1 := 0x1) (by decide) nnn⟩
theorem call (nnn : Addr) : Statement (.call nnn) := ⟨by simp [row, rows], matches_wordNNN (n1 := 0x2) (by decide) nnn⟩
theorem seImm (x : Reg) (nn : Byte) : Statement (.seImm x nn) :=
  ⟨by simp [row, rows], matches_wordXNN (n1 := 0x3) (by decide) x nn⟩
theorem sneImm (x : Reg) (nn : Byte) : Statement (.sneImm x nn) :=
  ⟨by simp [row, rows], matches_wordXNN (n1 := 0x4) (by decide) x nn⟩
theorem seReg (x y : Reg) : Statement (.seReg x y) :=
  ⟨by simp [row, rows], matches_selectorN (n1 := 0x5) (by decide) x y 0x0⟩
theorem ldImm (x : Reg) (nn : Byte) : Statement (.ldImm x nn) :=
  ⟨by simp [row, rows], matches_wordXNN (n1 := 0x6) (by decide) x nn⟩
theorem addImm (x : Reg) (nn : Byte) : Statement (.addImm x nn) :=
  ⟨by simp [row, rows], matches_wordXNN (n1 := 0x7) (by decide) x nn⟩
theorem ldReg (x y : Reg) : Statement (.ldReg x y) :=
  ⟨by simp [row, rows], matches_selectorN (n1 := 0x8) (by decide) x y 0x0⟩
theorem or (x y : Reg) : Statement (.or x y) :=
  ⟨by simp [row, rows], matches_selectorN (n1 := 0x8) (by decide) x y 0x1⟩
theorem and (x y : Reg) : Statement (.and x y) :=
  ⟨by simp [row, rows], matches_selectorN (n1 := 0x8) (by decide) x y 0x2⟩
theorem xor (x y : Reg) : Statement (.xor x y) :=
  ⟨by simp [row, rows], matches_selectorN (n1 := 0x8) (by decide) x y 0x3⟩
theorem addReg (x y : Reg) : Statement (.addReg x y) :=
  ⟨by simp [row, rows], matches_selectorN (n1 := 0x8) (by decide) x y 0x4⟩
theorem sub (x y : Reg) : Statement (.sub x y) :=
  ⟨by simp [row, rows], matches_selectorN (n1 := 0x8) (by decide) x y 0x5⟩
theorem shr (x y : Reg) : Statement (.shr x y) :=
  ⟨by simp [row, rows], matches_selectorN (n1 := 0x8) (by decide) x y 0x6⟩
theorem subn (x y : Reg) : Statement (.subn x y) :=
  ⟨by simp [row, rows], matches_selectorN (n1 := 0x8) (by decide) x y 0x7⟩
theorem shl (x y : Reg) : Statement (.shl x y) :=
  ⟨by simp [row, rows], matches_selectorN (n1 := 0x8) (by decide) x y 0xE⟩
theorem sneReg (x y : Reg) : Statement (.sneReg x y) :=
  ⟨by simp [row, rows], matches_selectorN (n1 := 0x9) (by decide) x y 0x0⟩
theorem ldI (nnn : Addr) : Statement (.ldI nnn) := ⟨by simp [row, rows], matches_wordNNN (n1 := 0xA) (by decide) nnn⟩
theorem rnd (x : Reg) (nn : Byte) : Statement (.rnd x nn) :=
  ⟨by simp [row, rows], matches_wordXNN (n1 := 0xC) (by decide) x nn⟩
theorem drw (x y : Reg) (n : Nibble) : Statement (.drw x y n) :=
  ⟨by simp [row, rows], matches_wordXYN (n1 := 0xD) (by decide) x y n⟩
theorem skp (x : Reg) : Statement (.skp x) :=
  ⟨by simp [row, rows], matches_selectorNN (n1 := 0xE) (by decide) x 0x9E⟩
theorem sknp (x : Reg) : Statement (.sknp x) :=
  ⟨by simp [row, rows], matches_selectorNN (n1 := 0xE) (by decide) x 0xA1⟩
theorem ldVxDt (x : Reg) : Statement (.ldVxDt x) :=
  ⟨by simp [row, rows], matches_selectorNN (n1 := 0xF) (by decide) x 0x07⟩
theorem ldDtVx (x : Reg) : Statement (.ldDtVx x) :=
  ⟨by simp [row, rows], matches_selectorNN (n1 := 0xF) (by decide) x 0x15⟩
theorem ldStVx (x : Reg) : Statement (.ldStVx x) :=
  ⟨by simp [row, rows], matches_selectorNN (n1 := 0xF) (by decide) x 0x18⟩
theorem addI (x : Reg) : Statement (.addI x) :=
  ⟨by simp [row, rows], matches_selectorNN (n1 := 0xF) (by decide) x 0x1E⟩
theorem ldF (x : Reg) : Statement (.ldF x) :=
  ⟨by simp [row, rows], matches_selectorNN (n1 := 0xF) (by decide) x 0x29⟩
theorem ldB (x : Reg) : Statement (.ldB x) :=
  ⟨by simp [row, rows], matches_selectorNN (n1 := 0xF) (by decide) x 0x33⟩
theorem ldMemVx (x : Reg) : Statement (.ldMemVx x) :=
  ⟨by simp [row, rows], matches_selectorNN (n1 := 0xF) (by decide) x 0x55⟩
theorem ldVxMem (x : Reg) : Statement (.ldVxMem x) :=
  ⟨by simp [row, rows], matches_selectorNN (n1 := 0xF) (by decide) x 0x65⟩

end Sys2Proof.Laws.EncodesInRow
end

