-- ==== Sys2Proof/Tests/Slice0.lean ====
section
/-! SUPPORT. The model's own tests: the checks of WellFormed, decoding by words written out from 30_encoding R61, single
steps whose expected results are vectors of 95_test_vectors (named in each comment), and for every statement with
hypotheses a state that meets them. -/

namespace Sys2Proof.Tests

open Sys2Proof.Machine

/-! ### WellFormed -/

/-- Vector E7. -/
theorem test_word_5F01_is_ill_formed : WellFormed.word 0x5F01 = false := by decide
theorem test_word_812E_is_well_formed : WellFormed.word 0x812E = true := by decide
theorem test_image_too_long_is_ill_formed : WellFormed.image (List.replicate 3585 0) = false := by decide +kernel
theorem test_image_of_3584_bytes_is_well_formed : WellFormed.image (List.replicate 3584 0) = true := by
  decide +kernel
theorem test_launch_mem_too_long_is_ill_formed :
    WellFormed.launchMem { referenceLaunch with initMem := List.replicate 4097 0 } = false := by decide +kernel
theorem test_launch_time_negative_is_ill_formed :
    WellFormed.launchTime { referenceLaunch with startTime := -1 } = false := by decide +kernel
theorem test_reference_launch_is_well_formed : WellFormed.launch referenceLaunch = true := by decide +kernel

/-! ### Decoding: one word for each instruction, and the illegal words of vectors X1 to X11 -/

theorem test_decode_cls : decode 0b0000000011100000 = .ok .cls := by decide
theorem test_decode_ret : decode 0b0000000011101110 = .ok .ret := by decide
theorem test_decode_jp : decode 0b0001101010111100 = .ok (.jp 0xABC) := by decide
theorem test_decode_call : decode 0b0010001100000000 = .ok (.call 0x300) := by decide
theorem test_decode_seImm : decode 0b0011101000000101 = .ok (.seImm 10 0x05) := by decide
theorem test_decode_sneImm : decode 0b0100000111111110 = .ok (.sneImm 1 0xFE) := by decide
theorem test_decode_seReg : decode 0b0101000100100000 = .ok (.seReg 1 2) := by decide
theorem test_decode_ldImm : decode 0b0110101001000010 = .ok (.ldImm 10 0x42) := by decide
theorem test_decode_addImm : decode 0b0111000100001010 = .ok (.addImm 1 0x0A) := by decide
theorem test_decode_ldReg : decode 0b1000000100100000 = .ok (.ldReg 1 2) := by decide
theorem test_decode_or : decode 0b1000000100100001 = .ok (.or 1 2) := by decide
theorem test_decode_and : decode 0b1000000100100010 = .ok (.and 1 2) := by decide
theorem test_decode_xor : decode 0b1000000100100011 = .ok (.xor 1 2) := by decide
theorem test_decode_addReg : decode 0b1000111100100100 = .ok (.addReg 15 2) := by decide
theorem test_decode_sub : decode 0b1000000111110101 = .ok (.sub 1 15) := by decide
theorem test_decode_shr : decode 0b1000000100100110 = .ok (.shr 1 2) := by decide
theorem test_decode_subn : decode 0b1000000100100111 = .ok (.subn 1 2) := by decide
theorem test_decode_shl : decode 0b1000000100101110 = .ok (.shl 1 2) := by decide
theorem test_decode_sneReg : decode 0b1001000100100000 = .ok (.sneReg 1 2) := by decide
theorem test_decode_ldI : decode 0b1010001000000000 = .ok (.ldI 0x200) := by decide
theorem test_decode_rnd : decode 0b1100000000001111 = .ok (.rnd 0 0x0F) := by decide
theorem test_decode_drw : decode 0b1101000100100101 = .ok (.drw 1 2 5) := by decide
theorem test_decode_skp : decode 0b1110010110011110 = .ok (.skp 5) := by decide
theorem test_decode_sknp : decode 0b1110010110100001 = .ok (.sknp 5) := by decide
theorem test_decode_ldVxDt : decode 0b1111000100000111 = .ok (.ldVxDt 1) := by decide
theorem test_decode_ldDtVx : decode 0b1111000100010101 = .ok (.ldDtVx 1) := by decide
theorem test_decode_ldStVx : decode 0b1111001100011000 = .ok (.ldStVx 3) := by decide
theorem test_decode_addI : decode 0b1111001100011110 = .ok (.addI 3) := by decide
theorem test_decode_ldF : decode 0b1111101000101001 = .ok (.ldF 10) := by decide
theorem test_decode_ldB : decode 0b1111101000110011 = .ok (.ldB 10) := by decide
theorem test_decode_ldMemVx : decode 0b1111001001010101 = .ok (.ldMemVx 2) := by decide
theorem test_decode_ldVxMem : decode 0b1111001001100101 = .ok (.ldVxMem 2) := by decide
theorem test_decode_illegal_words :
    ([0x0000, 0x0123, 0x00E1, 0x00FF, 0xB123, 0xF00A, 0x5121, 0x8008, 0x800D, 0x800F, 0x9001, 0xE09F, 0xE0A2, 0xE000,
      0xF000, 0xF0FF, 0xF019, 0xF056] : List Word).all (fun w => !(decode w).toBool) = true := by decide
theorem test_decodeBytes_truncated : decodeBytes [0x60] = .error .truncated := by decide
/-- The high byte is the first (20_memory R47; vector E6). -/
theorem test_decodeBytes_big_endian : decodeBytes [0xA2, 0x00, 0x77] = .ok (.ldI 0x200, [0x77]) := by decide
theorem test_decodeTableWord : decodeTableWord 16 0xA200 = some (.ldI 0x200) := by decide

/-! ### Small states -/

/-- A state with some registers and `I` set, its instruction fetched at 0x200. -/
def sample (regs : List (Reg × Byte)) (i : Nat) : State :=
  regs.foldl (fun s p => setV s p.1 p.2) { State.reset with pc := 0x202, i := i }

/-- A running core whose next word is `w`. -/
def ready (w : Nat) : State := State.reset.withFetchWord 16 w

/-- An input sample. -/
def sampled (time : Time) (byte : Byte) (keys : BitVec 16) (closed : Bool) : StepInput := ⟨time, byte, keys, closed⟩

/-- The instruction completes in a state with the property. -/
def completes (r : Result) (p : State → Bool) : Bool :=
  match r with
  | .next t => p t
  | .fault _ => false
  | .refused _ => false

/-- The instruction stops with the record, and the state it leaves has the property. -/
def faults (r : Result) (record : FaultRecord) (p : State → Bool) : Bool :=
  match r with
  | .next _ => false
  | .fault (.fatal q t) => decide (q = record) && p t
  | .refused _ => false

/-! ### One step of each instruction -/

/-- Vector D12. -/
theorem test_cls : completes (exec .cls { sample [] 0 with fb := setPixel clearScreen 63 31 true })
    (fun t => !pixel t.fb 63 31 && t.out == [.displayClear]) = true := by decide
/-- Vector C4. -/
theorem test_ret_last_in_first_out : completes (exec .ret { sample [] 0 with stack := [0x202, 0x402] })
    (fun t => t.pc == 0x402 && t.stack == [0x202]) = true := by decide
/-- Vector C3. -/
theorem test_ret_underflow : faults (exec .ret (sample [] 0)) (.stackUnderflow 0x200) (fun t => t.pc == 0x202) = true := by
  decide
/-- Vector C5. -/
theorem test_jp : completes (exec (.jp 0xABC) (sample [] 0)) (fun t => t.pc == 0xABC) = true := by decide
/-- Vector C1. -/
theorem test_call : completes (exec (.call 0x300) (sample [] 0)) (fun t => t.pc == 0x300 && t.stack == [0x202]) = true := by
  decide
/-- Vector F3. -/
theorem test_call_overflow : faults (exec (.call 0x300) { sample [] 0 with
    stackLimit := some 16, stack := List.replicate 16 0x300 }) (.stackOverflow 0x200)
    (fun t => t.stack.length == 16) = true := by decide
/-- Vectors C10 and C11. -/
theorem test_seImm : completes (exec (.seImm 0 0x05) (sample [(0, 0x05)] 0)) (fun t => t.pc == 0x204) = true := by decide
theorem test_seImm_differs : completes (exec (.seImm 0 0x06) (sample [(0, 0x05)] 0)) (fun t => t.pc == 0x202) = true := by
  decide
/-- Vectors C12 and C13. -/
theorem test_sneImm : completes (exec (.sneImm 0 0x06) (sample [(0, 0x05)] 0)) (fun t => t.pc == 0x204) = true := by decide
theorem test_sneImm_equal : completes (exec (.sneImm 0 0x05) (sample [(0, 0x05)] 0)) (fun t => t.pc == 0x202) = true := by
  decide
/-- Vectors C14 and C15. -/
theorem test_seReg : completes (exec (.seReg 1 2) (sample [(1, 0x33), (2, 0x33)] 0)) (fun t => t.pc == 0x204) = true := by
  decide
theorem test_seReg_differs : completes (exec (.seReg 1 2) (sample [(1, 0x33), (2, 0x34)] 0))
    (fun t => t.pc == 0x202) = true := by decide
/-- Vectors C17 and C18. -/
theorem test_sneReg : completes (exec (.sneReg 1 2) (sample [(1, 1), (2, 2)] 0)) (fun t => t.pc == 0x204) = true := by decide
theorem test_sneReg_same : completes (exec (.sneReg 1 1) (sample [(1, 9)] 0)) (fun t => t.pc == 0x202) = true := by decide
/-- Vectors A1 and A2. -/
theorem test_ldImm : completes (exec (.ldImm 10 0x42) (sample [] 0)) (fun t => getV t 10 == 0x42) = true := by decide
theorem test_ldImm_vf : completes (exec (.ldImm 15 0x07) (sample [] 0)) (fun t => getV t 15 == 0x07) = true := by decide
/-- Vectors A3 and A6. -/
theorem test_addImm_wraps : completes (exec (.addImm 1 0x0A) (sample [(1, 0xFA), (15, 7)] 0))
    (fun t => getV t 1 == 0x04 && getV t 15 == 7) = true := by decide
theorem test_addImm_vf : completes (exec (.addImm 15 0x01) (sample [(15, 1)] 0)) (fun t => getV t 15 == 2) = true := by
  decide
/-- Vector A7. -/
theorem test_ldReg : completes (exec (.ldReg 1 2) (sample [(2, 7)] 0)) (fun t => getV t 1 == 7) = true := by decide
/-- Vector A8. -/
theorem test_or_keeps_vf : completes (exec (.or 1 2) (sample [(1, 0xF0), (2, 0x0F), (15, 5)] 0))
    (fun t => getV t 1 == 0xFF && getV t 15 == 5) = true := by decide
/-- Vector A9. -/
theorem test_and : completes (exec (.and 1 2) (sample [(1, 0xF0), (2, 0x3C)] 0)) (fun t => getV t 1 == 0x30) = true := by
  decide
/-- Vector A10. -/
theorem test_xor : completes (exec (.xor 1 2) (sample [(1, 0xFF), (2, 0x0F)] 0)) (fun t => getV t 1 == 0xF0) = true := by
  decide
/-- Vectors A18 and A17. -/
theorem test_addReg_old_vf : completes (exec (.addReg 1 15) (sample [(1, 0xFF), (15, 1)] 0))
    (fun t => getV t 1 == 0 && getV t 15 == 1) = true := by decide
theorem test_addReg_into_vf : completes (exec (.addReg 15 2) (sample [(15, 0xF0), (2, 0x20)] 0))
    (fun t => getV t 15 == 0x10) = true := by decide
/-- Vectors A22 and A25. -/
theorem test_sub_equal : completes (exec (.sub 1 2) (sample [(1, 7), (2, 7), (15, 9)] 0))
    (fun t => getV t 1 == 0 && getV t 15 == 0) = true := by decide
theorem test_sub_from_vf : completes (exec (.sub 1 15) (sample [(1, 0x0A), (15, 3)] 0))
    (fun t => getV t 1 == 9 && getV t 15 == 1) = true := by decide
/-- Vectors A27 and A30. -/
theorem test_shr_ignores_y : completes (exec (.shr 1 2) (sample [(1, 5), (2, 0xFF)] 0))
    (fun t => getV t 1 == 2 && getV t 15 == 1) = true := by decide
theorem test_shr_vf : completes (exec (.shr 15 0) (sample [(15, 3)] 0)) (fun t => getV t 15 == 0) = true := by decide
/-- Vectors A32 and A35. -/
theorem test_subn_borrow : completes (exec (.subn 1 2) (sample [(1, 0x0A), (2, 5), (15, 9)] 0))
    (fun t => getV t 1 == 0xFB && getV t 15 == 0) = true := by decide
theorem test_subn_from_vf : completes (exec (.subn 1 15) (sample [(1, 3), (15, 0x0A)] 0))
    (fun t => getV t 1 == 0xFE && getV t 15 == 1) = true := by decide
/-- Vectors A36 and A39. -/
theorem test_shl : completes (exec (.shl 1 2) (sample [(1, 0x81)] 0)) (fun t => getV t 1 == 2 && getV t 15 == 1) = true := by
  decide
theorem test_shl_vf : completes (exec (.shl 15 0) (sample [(15, 0x80)] 0)) (fun t => getV t 15 == 2) = true := by decide
/-- Vector A41. -/
theorem test_rnd : completes (exec (.rnd 0 0x0F) { sample [] 0 with input := sampled 0 0xAB 0 false })
    (fun t => getV t 0 == 0x0B) = true := by decide
/-- Vector M2. -/
theorem test_ldI : completes (exec (.ldI 0xFFF) (sample [] 0)) (fun t => t.i == 0xFFF) = true := by decide
/-- Vector M4. -/
theorem test_addI_no_wrap : completes (exec (.addI 0) (sample [(0, 1), (15, 7)] 0xFFF))
    (fun t => t.i == 0x1000 && getV t 15 == 7) = true := by decide
/-- Vectors M7 and M9. -/
theorem test_ldF : completes (exec (.ldF 0) (sample [(0, 0x0A)] 0)) (fun t => t.i == 0x82) = true := by decide
theorem test_ldF_not_masked : completes (exec (.ldF 0) (sample [(0, 0xFF)] 0)) (fun t => t.i == 0x54B) = true := by decide
/-- Vector M14. -/
theorem test_ldB_last : completes (exec (.ldB 0) (sample [(0, 0x7B)] 0xFFD))
    (fun t => Memory.readBytes t.mem 0xFFD 3 == [1, 2, 3] && t.i == 0xFFD) = true := by decide
/-- Vector M15, for both values of `BCD_PARTIAL`. -/
theorem test_ldB_report :
    completes (exec (.ldB 0) (sample [(0, 0x7B)] 0xFFE)) (fun t => t.mem == [] && t.out == [.bcdRange 0x200 0xFFE]) &&
    completes (exec (.ldB 0) { sample [(0, 0x7B)] 0xFFE with bcdPartial := true })
      (fun t => t.mem == [(0xFFE, 1), (0xFFF, 2)] && t.out == [.bcdRange 0x200 0xFFE]) = true := by decide
/-- Vector M18. -/
theorem test_ldMemVx : completes (exec (.ldMemVx 2) (sample [(0, 1), (1, 2), (2, 3), (3, 4)] 0x300))
    (fun t => t.mem == [(0x300, 1), (0x301, 2), (0x302, 3)] && t.i == 0x300) = true := by decide
/-- Vector M21. -/
theorem test_ldMemVx_out_of_range : faults (exec (.ldMemVx 15) (sample [(0, 1)] 0xFF1)) (.memoryBounds 0x200 0x1000)
    (fun t => t.mem == [] && t.pc == 0x202) = true := by decide
/-- Vector M22. -/
theorem test_ldVxMem : completes (exec (.ldVxMem 2) { sample [(3, 9)] 0x300 with
    mem := [(0x300, 1), (0x301, 2), (0x302, 3), (0x303, 4)] })
    (fun t => getV t 0 == 1 && getV t 2 == 3 && getV t 3 == 9 && t.i == 0x300) = true := by decide
/-- Vector M25. -/
theorem test_ldVxMem_out_of_range : faults (exec (.ldVxMem 0) (sample [] 0x1234)) (.memoryBounds 0x200 0x1234)
    (fun t => getV t 0 == 0) = true := by decide
/-- Vector T10, and the clamp of vector T6. -/
theorem test_ldVxDt : completes (exec (.ldVxDt 1) { sample [] 0 with
    dt := ⟨30, 2⟩, input := sampled (9 / 4) 0 0 false }) (fun t => getV t 1 == 15) = true := by decide +kernel
theorem test_ldVxDt_clamped : completes (exec (.ldVxDt 1) { sample [(1, 5)] 0 with
    dt := ⟨30, 0⟩, input := sampled 100 0 0 false }) (fun t => getV t 1 == 0) = true := by decide +kernel
/-- Vector T2: 60 times 0.0166 has floor 0. -/
theorem test_timerValue_below_one_tick : timerValue ⟨30, 0⟩ (166 / 10000) = 30 := by decide +kernel
/-- Vector T9. -/
theorem test_ldDtVx : completes (exec (.ldDtVx 0) { sample [(0, 0x1E)] 0 with input := sampled 2 0 0 false })
    (fun t => t.dt == ⟨0x1E, 2⟩ && t.st == ⟨0, 0⟩) = true := by decide +kernel
/-- Vector T12. -/
theorem test_ldStVx : completes (exec (.ldStVx 3) (sample [(3, 60)] 0))
    (fun t => soundValue t (1 / 2) == 30 && soundValue t 1 == 0) = true := by decide +kernel
/-- Vector D3: the right edge clips. -/
theorem test_drw_clips : completes (exec (.drw 0 1 1) { sample [(0, 60), (1, 0)] 0x300 with mem := [(0x300, 0xFF)] })
    (fun t => pixel t.fb 59 0 == false && pixel t.fb 60 0 && pixel t.fb 63 0 && pixel t.fb 0 1 == false &&
      getV t 15 == 0) = true := by decide
/-- Vector D10: a collision. -/
theorem test_drw_collides : completes (exec (.drw 0 1 1) { sample [] 0x300 with
    mem := [(0x300, 0xC0)], fb := setPixel clearScreen 0 0 true })
    (fun t => pixel t.fb 0 0 == false && pixel t.fb 1 0 && getV t 15 == 1 && t.i == 0x300) = true := by decide
/-- Vectors D17 and D18. -/
theorem test_skp : completes (exec (.skp 0) { sample [(0, 15)] 0 with input := sampled 0 0 0x8000 false })
    (fun t => t.pc == 0x204) = true := by decide
theorem test_skp_out_of_range : faults (exec (.skp 0) (sample [(0, 16)] 0)) (.keyOutOfRange 0x200 0x10)
    (fun t => t.out == []) = true := by decide
/-- Vectors D15 and D16. -/
theorem test_sknp_up : completes (exec (.sknp 0) { sample [(0, 5)] 0 with input := sampled 0 0 0 false })
    (fun t => t.pc == 0x204) = true := by decide
theorem test_sknp_down : completes (exec (.sknp 0) { sample [(0, 5)] 0 with input := sampled 0 0 0x20 false })
    (fun t => t.pc == 0x202) = true := by decide

/-! ### The step and the host's operations -/

/-- Vector E6. -/
theorem test_step_from_reset : completes (step (ready 0xA200)) (fun t => t.i == 0x200 && t.pc == 514) = true := by decide
/-- Vector E7. -/
theorem test_step_unknown_opcode : faults (step (ready 0x5F01)) (.unknownOpcode 5 0xF 0 1 0x200 0x202)
    (fun t => t.pc == 0x202 && t.status == .faulted (.unknownOpcode 5 0xF 0 1 0x200 0x202)) = true := by decide
/-- Vector X15. -/
theorem test_step_fetch_out_of_range : faults (step { State.reset with pc := 0xFFF }) (.memoryBounds 0xFFF 0x1000)
    (fun t => t.pc == 0xFFF) = true := by decide
/-- Vector X16: an odd fetch address. -/
theorem test_step_odd_pc : completes (step { State.reset with pc := 0x201, mem := [(0x201, 0x60), (0x202, 0x7F)] })
    (fun t => getV t 0 == 0x7F && t.pc == 0x203) = true := by decide
/-- 20_memory R40: the first byte of glyph A at 0x82 and the last of glyph F at 0x9F. -/
theorem test_font : Memory.readBytes State.reset.mem 0x82 2 = [0xF0, 0x90] ∧ Memory.read State.reset.mem 0x9F = 0x80 := by
  decide
/-- 70 R149: a closed Control stops the run before any instruction. -/
theorem test_runOnce_closed : completes (runOnce { ready 0xA200 with pending := [sampled 0 0 0 true] })
    (fun t => t.status == .closed && t.i == 0 && t.pc == 0x200) = true := by decide
theorem test_load : completes (load [0xA2, 0x00] State.reset) (fun t => fetchWord t == 0xA200 && t.loaded) = true := by decide
theorem test_finished : finished (ready 0x1200) = true := by decide

/-! ### States that meet the statements' hypotheses -/

theorem witness_EncodeOfDecode : decode 0x812E = .ok (.shl 1 2) := by decide
theorem witness_DecodeFollowsOpcodeRows : (⟨0xF065, 0xF0FF⟩ : Row) ∈ rows := by decide
theorem witness_IllegalWords : (ready 0x5F01).status = .running ∧ Fetchable (ready 0x5F01) ∧
    WellFormed.illegalWord (fetchWord (ready 0x5F01)) = true := by decide
theorem witness_StepRuns : (ready 0x6A42).status = .running ∧ Fetchable (ready 0x6A42) ∧
    decode (bigEndian (Memory.read (ready 0x6A42).mem (ready 0x6A42).pc.toNat)
      (Memory.read (ready 0x6A42).mem ((ready 0x6A42).pc.toNat + 1))) = .ok (.ldImm 10 0x42) := by decide
theorem witness_StepRuns_last_address :
    Fetchable { State.reset with pc := 0xFFE } ∧ ¬ Fetchable { State.reset with pc := 0xFFF } := by decide
theorem witness_FetchOutOfRange : ({ State.reset with pc := 0x1002 } : State).status = .running ∧
    ¬ Fetchable { State.reset with pc := 0x1002 } := by decide
theorem witness_EndedCore : ({ State.reset with status := .closed } : State).status ≠ .running ∧
    ({ State.reset with status := .faulted (.stackUnderflow 0x200) } : State).status ≠ .running := by decide
theorem witness_RunLoop_both_answers :
    (nextInput { State.reset with pending := [sampled 0 0 0 true] }).closed = true ∧
    (nextInput { State.reset with pending := [sampled 0 0 0 false] }).closed = false := by decide
theorem witness_AddRegisters : (1 : Reg) ≠ vf := by decide
theorem witness_Subtract_and_VfAsOperand : (1 : Reg) ≠ vf ∧ (14 : Reg) ≠ vf := by decide
theorem witness_Shifts : (14 : Reg) ≠ vf ∧ (15 : Reg) = vf := by decide
theorem witness_RandomByte : ({ sample [] 0 with input := sampled 0 0xAB 0 false } : State).input.random = 0xAB := by decide
theorem witness_Call : (sample [] 0).stackLimit ≠ some (sample [] 0).stack.length ∧
    ({ sample [] 0 with stackLimit := some 1 } : State).stackLimit ≠ some 0 ∧
    ({ sample [] 0 with stackLimit := some 1, stack := [0x300] } : State).stackLimit = some [(0x300 : Word)].length := by
  decide
theorem witness_Return : ({ sample [] 0 with stack := [0x206] } : State).stack = [] ++ [0x206] ∧ (sample [] 0).stack = [] := by
  decide
theorem witness_Skips : fieldN1 0x5F01 = 5 ∧ fieldN4 0x5F01 ≠ 0 ∧ fieldN1 0x9001 = 9 ∧ fieldN4 0x9001 ≠ 0 := by decide
theorem witness_DecimalDigits : (sample [] 0xFFD).i ≤ 0xFFD := by decide
theorem witness_DecimalOutOfRange : (sample [] 0xFFE).i > 0xFFD ∧ (sample [] 0xFFE).i + 1 ≤ 0xFFF ∧
    (sample [] 0xFFF).i > 0xFFD ∧ (sample [] 0xFFF).i ≤ 0xFFF ∧ (sample [] 0x1000).i > 0xFFD ∧
    (sample [] 0xFFE).bcdPartial = false ∧ ({ sample [] 0xFFE with bcdPartial := true } : State).bcdPartial = true := by
  decide
theorem witness_RegistersStored_and_Loaded : (sample [] 0xFF0).i + (15 : Reg).val ≤ 0xFFF := by decide
theorem witness_OutOfRangeAccess : (sample [] 0xFF1).i + (15 : Reg).val > 0xFFF ∧ (2 : Nibble) ≠ 0 ∧
    (sample [] 0xFFF).i + (2 : Nibble).toNat > 0x1000 := by decide
theorem witness_StoreThenLoad : ∃ t, exec (.ldMemVx 2) (sample [(0, 1)] 0x300) = .next t := ⟨_, rfl⟩
/-- A store over both bytes at `pc`, over one of them (the second at 0x201, the first at 0x203), and at the edges of
Fx33's range. -/
theorem witness_StoreSeenByNextFetch :
    completes (exec (.ldMemVx 1) (sample [(0, 0x60), (1, 0x7F)] 0x202)) (fun t => fetchWord t == 0x607F) &&
    completes (exec (.ldMemVx 1) (sample [(0, 0x60), (1, 0x7F)] 0x201)) (fun t => fetchWord t == 0x7F00) &&
    completes (exec (.ldMemVx 0) (sample [(0, 0x60)] 0x203)) (fun t => fetchWord t == 0x0060) &&
    completes (exec (.ldB 0) (sample [(0, 0x7B)] 0x203)) (fun t => fetchWord t == 0x0001) &&
    completes (exec (.ldB 0) { sample [(0, 0x7B)] 0xFFF with pc := 0xFFE, bcdPartial := true })
      (fun t => fetchWord t == 0x0001) &&
    completes (exec (.ldB 0) { sample [(0, 0x7B)] 0xFFF with pc := 0xFFE }) (fun t => fetchWord t == 0x0000) = true := by
  decide
theorem witness_DelayTimer : (sample [] 0).dt.start ≤ (sample [] 0).input.now := le_refl _
theorem witness_Draw : (sample [] 0xFFF).i + (1 : Nibble).toNat ≤ 0x1000 ∧ (0 : Nibble) = 0 := by decide
theorem witness_DrawTwice : ∃ t, exec (.drw 1 2 5) (sample [(1, 62), (2, 30)] 0x69) = .next t ∧
    getV t 1 = getV (sample [(1, 62), (2, 30)] 0x69) 1 ∧ getV t 2 = getV (sample [(1, 62), (2, 30)] 0x69) 2 :=
  ⟨_, rfl, by decide, by decide⟩
/-- The form with x = F, whose first draw changes VF: the second draw starts with VF written back. -/
theorem witness_DrawTwice_vf : ∃ t, exec (.drw 15 1 5) (sample [(15, 5)] 0x69) = .next t ∧
    getV t vf ≠ 5 ∧ (setV t vf 5).fb = t.fb ∧ (setV t vf 5).mem = t.mem ∧ (setV t vf 5).i = t.i ∧
    getV (setV t vf 5) vf = getV (sample [(15, 5)] 0x69) vf ∧ getV (setV t vf 5) 1 = getV (sample [(15, 5)] 0x69) 1 :=
  ⟨_, rfl, by decide, rfl, rfl, rfl, by decide, by decide⟩
theorem witness_KeySkips : (getV (sample [(0, 15)] 0) 0).toNat ≤ 15 ∧ (getV (sample [(0, 16)] 0) 0).toNat > 15 ∧
    (sampled 0 0 0x8000 false).keys.getLsbD 15 = true ∧ (sampled 0 0 0 false).keys.getLsbD 15 = false := by decide
theorem inv_ready (inputs : List StepInput) : Inv { ready 0x6A42 with pending := inputs } :=
  ⟨(by decide : Memory.wf (ready 0x6A42).mem = true), (by decide : (ready 0x6A42).pc.toNat ≤ 0x1002),
    by simp [ready, State.withFetchWord, placeWord, State.reset],
    by simp [ready, State.withFetchWord, placeWord, State.reset], le_refl _, le_refl _, le_refl _⟩
theorem witness_StepKeepsInvariant : Inv (ready 0x6A42) ∧ ∃ t, step (ready 0x6A42) = .next t := ⟨inv_ready [], _, rfl⟩
/-- Both answers of `isClosed()`. -/
theorem witness_RunKeepsInvariant :
    (Inv { ready 0x6A42 with pending := [sampled 0 0 0 true] } ∧
      ∃ t, runOnce { ready 0x6A42 with pending := [sampled 0 0 0 true] } = .next t) ∧
    Inv { ready 0x6A42 with pending := [sampled 1 0 0 false] } ∧
      ∃ t, runOnce { ready 0x6A42 with pending := [sampled 1 0 0 false] } = .next t :=
  ⟨⟨inv_ready _, _, rfl⟩, inv_ready _, _, rfl⟩
theorem witness_Launch : WellFormed.launch { referenceLaunch with initMem := [1, 2, 3] } = true := by decide +kernel
theorem witness_Load : State.reset.loaded = false ∧ State.reset.steps = 0 ∧
    (List.replicate 3584 (0 : Byte)).length ≤ 3584 ∧ (List.replicate 3585 (0 : Byte)).length > 3584 := by
  decide +kernel
theorem witness_Load_misuse : ({ State.reset with loaded := true } : State).loaded = true ∧
    ({ State.reset with steps := 1 } : State).steps ≠ 0 := by decide
theorem witness_writers : (∃ t, exec .cls (sample [] 0) = .next t) ∧ (∃ t, exec (.ldI 5) (sample [] 0) = .next t) ∧
    (∃ t, exec (.seReg 1 1) (sample [] 0) = .next t) ∧ (∃ t, exec (.call 5) (sample [] 0) = .next t) :=
  ⟨⟨_, rfl⟩, ⟨_, rfl⟩, ⟨_, rfl⟩, ⟨_, rfl⟩⟩
theorem witness_VfWritten : ∃ t, exec (.addReg 1 2) (sample [(1, 200), (2, 100)] 0) = .next t ∧
    getV t vf ≠ getV (sample [(1, 200), (2, 100)] 0) vf := ⟨_, rfl, by decide⟩
theorem witness_SoundTimer : (∃ x, Instr.ldStVx 3 = .ldStVx x) ∧ ¬ ∃ x, Instr.ldDtVx 3 = .ldStVx x := by simp
theorem witness_InputsRead : (¬ ∃ x nn, Instr.cls = .rnd x nn) ∧ (¬ ∃ x, Instr.cls = .skp x ∨ Instr.cls = .sknp x) ∧
    ¬ ∃ x, Instr.cls = .ldVxDt x ∨ Instr.cls = .ldDtVx x ∨ Instr.cls = .ldStVx x := by simp
theorem witness_StepBookkeeping : ∃ t, step (ready 0xD010) = .next t := ⟨_, rfl⟩

end Sys2Proof.Tests
end

section
/-! Proofs of 20_memory: the fetched word. -/

namespace Sys2Proof

/-- `fieldX` is `fieldN2` read as a register number (30_encoding R59). -/
theorem toNat_fieldN2 (w : Word) : (fieldN2 w).toNat = w.toNat / 0x100 % 0x10 := val_fieldX w

/-- The high byte of a word holds `n1` in its upper half (20_memory R47). -/
theorem toNat_fieldN1_bigEndian (hi lo : Byte) : (fieldN1 (bigEndian hi lo)).toNat = hi.toNat / 16 := by
  have hlo : lo.toNat < 256 := lo.isLt
  rw [toNat_fieldN1, toNat_bigEndian]
  omega

/-- The high byte of a word holds `n2` in its lower half (20_memory R47). -/
theorem toNat_fieldN2_bigEndian (hi lo : Byte) : (fieldN2 (bigEndian hi lo)).toNat = hi.toNat % 16 := by
  have hlo : lo.toNat < 256 := lo.isLt
  rw [toNat_fieldN2, toNat_bigEndian]
  omega

end Sys2Proof

namespace Sys2Proof.Machine

/-- Settles O7: `fetchWord` is the big-endian word of the two bytes at `pc`, so the facts about `bigEndian` are facts
about it. -/
theorem fetchIsBigEndian : Obligations.FetchIsBigEndian := fun _ =>
  ⟨toNat_bigEndian _ _, toNat_fieldN1_bigEndian _ _, toNat_fieldN2_bigEndian _ _⟩

end Sys2Proof.Machine
end

section
/-! Proofs of 30_encoding: `decode` and `illegalWord` against the rows of R61, and the step that fetches an illegal
word (R64). -/

namespace Sys2Proof

/-! ### When a word matches a row -/

/-- A row that fixes every bit matches one word. -/
theorem matches_all (p w : Word) : Row.matches ⟨p, 0xFFFF⟩ w = true ↔ w.toNat = p.toNat := by
  rw [Row.matches, beq_iff_eq, BitVec.toNat_inj]
  exact Eq.congr_left BitVec.and_allOnes

/-- A word matches the row whose pattern has its family nibble. -/
theorem matches_of_n1 {w : Word} {n1 : Nibble} (h1 : fieldN1 w = n1) :
    Row.matches ⟨n1 ++ 0#12, 0xF000⟩ w = true := by
  rw [matches_n1, ← toNat_fieldN1, h1, BitVec.toNat_append]
  simp [Nat.shiftLeft_eq]

/-- A word matches the row whose pattern has its family nibble and its last nibble. -/
theorem matches_of_n1_n4 {w : Word} {n1 n4 : Nibble} (h1 : fieldN1 w = n1) (h4 : fieldN4 w = n4) :
    Row.matches ⟨n1 ++ 0#8 ++ n4, 0xF00F⟩ w = true := by
  rw [matches_n1_n4, ← toNat_fieldN1, ← toNat_fieldN4, h1, h4, BitVec.toNat_append, BitVec.toNat_append,
    ← Nat.shiftLeft_add_eq_or_of_lt n4.isLt]
  simp [Nat.shiftLeft_eq, Nat.mul_assoc]

/-- A word matches the row whose pattern has its family nibble and its low byte. -/
theorem matches_of_n1_nn {w : Word} {n1 : Nibble} {nn : Byte} (h1 : fieldN1 w = n1) (hnn : fieldNN w = nn) :
    Row.matches ⟨n1 ++ 0#4 ++ nn, 0xF0FF⟩ w = true := by
  rw [matches_n1_nn, ← toNat_fieldN1, ← toNat_fieldNN, h1, hnn, BitVec.toNat_append, BitVec.toNat_append,
    ← Nat.shiftLeft_add_eq_or_of_lt nn.isLt]
  simp [Nat.shiftLeft_eq, Nat.mul_assoc]

theorem row_mem_rows (i : Instr) : row i ∈ rows := by
  cases i <;> simp [row, rows]

/-- Two rows of R61 that agree on the bits both fix are one row: no word matches two (R63). -/
theorem rows_disjoint :
    ∀ r ∈ rows, ∀ r' ∈ rows, r.pattern &&& r'.mask = r'.pattern &&& r.mask → r = r' := by
  decide

theorem row_unique {w : Word} {r r' : Row} (hr : r ∈ rows) (hr' : r' ∈ rows) (h : r.matches w = true)
    (h' : r'.matches w = true) : r = r' := by
  rw [Row.matches, beq_iff_eq] at h h'
  apply rows_disjoint r hr r' hr'
  rw [← h, ← h', BitVec.and_assoc, BitVec.and_assoc, BitVec.and_comm r.mask]

/-! ### `decode` against the two tables -/

/-- The family that R64's table reads off a word is `n1`. -/
theorem family_eq {w : Word} {n1 : Nibble} (h : fieldN1 w = n1) : w.toNat / 0x1000 = n1.toNat := by
  rw [← toNat_fieldN1, h]

/-- What R61 and R64 allow as the decoding of `w`: an instruction whose row `w` matches, or a failure if `w` is in the
table of illegal words. -/
def FollowsTables (w : Word) : Except DecodeError Instr → Prop
  | .ok i => (row i).matches w = true
  | .error _ => WellFormed.illegalWord w = true

/-- The selectors of family 8 are the last nibbles of its rows; every other last nibble is illegal. -/
theorem decode8_followsTables {w : Word} (h1 : fieldN1 w = 0x8) : FollowsTables w (decode8 w) := by
  unfold decode8
  split
  case h_10 =>
    simp [FollowsTables, illegal, WellFormed.illegalWord, family_eq h1, ← toNat_fieldN4]
    simp only [imp_false] at *
    bv_omega
  all_goals exact matches_of_n1_n4 h1 ‹_›

/-- The selectors of family F are the low bytes of its rows; every other low byte is illegal. -/
theorem decodeF_followsTables {w : Word} (h1 : fieldN1 w = 0xF) : FollowsTables w (decodeF w) := by
  unfold decodeF
  split
  case h_9 =>
    simp [FollowsTables, illegal, WellFormed.illegalWord, family_eq h1, ← toNat_fieldNN]
    simp only [imp_false] at *
    bv_omega
  all_goals exact matches_of_n1_nn h1 ‹_›

/-- The cases of `decode` are the families `n1`; a family without a selector has one row, which fixes only `n1`. -/
theorem decode_followsTables (w : Word) : FollowsTables w (decode w) := by
  unfold decode
  split
  case h_1 h1 =>
    split_ifs with hcls hret
    · subst hcls; rfl
    · subst hret; rfl
    · simp [FollowsTables, illegal, WellFormed.illegalWord, family_eq h1]
      bv_omega
  case h_6 h1 | h_10 h1 =>
    split_ifs with h4
    · exact matches_of_n1_n4 h1 h4
    · simp [FollowsTables, illegal, WellFormed.illegalWord, family_eq h1, ← toNat_fieldN4]
      bv_omega
  case h_9 h1 => exact decode8_followsTables h1
  case h_14 h1 =>
    split_ifs with hskp hsknp
    · exact matches_of_n1_nn h1 hskp
    · exact matches_of_n1_nn h1 hsknp
    · simp [FollowsTables, illegal, WellFormed.illegalWord, family_eq h1, ← toNat_fieldNN]
      bv_omega
  case h_15 h1 => exact decodeF_followsTables h1
  case h_16 =>
    have h1 : fieldN1 w = 0xB := by
      generalize fieldN1 w = n1 at *
      decide +revert
    simp [FollowsTables, illegal, WellFormed.illegalWord, family_eq h1]
  all_goals exact matches_of_n1 ‹_›

theorem row_matches_of_decode {w : Word} {i : Instr} (h : decode w = .ok i) : (row i).matches w = true := by
  have hw := decode_followsTables w
  rwa [h] at hw

theorem illegalWord_of_decode {w : Word} {e : DecodeError} (h : decode w = .error e) :
    WellFormed.illegalWord w = true := by
  have hw := decode_followsTables w
  rwa [h] at hw

/-- R61 and R64 exclude each other: in each family of R64's table, an illegal word differs from every row's pattern in
the family nibble or in the selector. -/
theorem not_matches_of_illegalWord {w : Word} (h : WellFormed.illegalWord w = true) :
    ∀ r ∈ rows, ¬ r.matches w = true := by
  simp only [rows, List.cons_append, List.nil_append, List.forall_mem_cons, matches_n1, matches_n1_n4, matches_n1_nn,
    matches_all]
  simp only [WellFormed.illegalWord] at h
  split at h
  case h_8 => cases h
  all_goals
    next h1 =>
      simp [h1] at h ⊢
      omega

/-- A word is illegal exactly if `decode` fails on it (R64). -/
theorem illegalWord_iff (w : Word) : WellFormed.illegalWord w = true ↔ ∃ e, decode w = .error e := by
  constructor
  · intro h
    cases hw : decode w with
    | error e => exact ⟨e, rfl⟩
    | ok i => exact absurd (row_matches_of_decode hw) (not_matches_of_illegalWord h _ (row_mem_rows i))
  · rintro ⟨e, he⟩
    exact illegalWord_of_decode he

/-- A word that matches a row of R61 decodes to an instruction of that row. -/
theorem exists_decode_of_matches {w : Word} {r : Row} (hr : r ∈ rows) (h : r.matches w = true) :
    ∃ i, decode w = .ok i ∧ row i = r := by
  cases hw : decode w with
  | error e => exact absurd h (not_matches_of_illegalWord (illegalWord_of_decode hw) r hr)
  | ok i => exact ⟨i, rfl, row_unique (row_mem_rows i) hr (row_matches_of_decode hw) h⟩

/-- Settles O3: `decode` follows the table of R61 one way by its cases, the other way because a matching word is not
illegal and the rows are disjoint. -/
theorem decodeFollowsOpcodeRows : Obligations.DecodeFollowsOpcodeRows := by
  refine ⟨rfl, row_mem_rows, fun w r hr => ?_⟩
  rw [← beq_iff_eq]
  constructor
  · rintro ⟨i, hi, rfl⟩
    exact row_matches_of_decode hi
  · exact exists_decode_of_matches hr

end Sys2Proof

namespace Sys2Proof.Machine

/-- What a step does with a fetched word that is no instruction (30_encoding R57, 60_exceptions R129): it raises
`UnknownOpcode` with `pc` already advanced. -/
theorem step_of_decode_error {s : State} {e : DecodeError} (hrun : s.status = .running) (hfetch : Fetchable s)
    (he : decode (fetchWord s) = .error e) :
    step s = raise (unknownOpcode (fetchWord s) s.pc) (advancePc (sampleInput s)) := by
  have hrange : accessInRange s.pc.toNat 2 = true := (accessInRange_iff _ _).2 (.inr (by omega))
  have hword : fetchWord (sampleInput s) = fetchWord s := rfl
  simp [step, beginStep, fetchDecode, hrun, hrange, hword, he, raise]

/-- Settles O4: a word of R64's table is one on which `decode` fails, and the step then raises `UnknownOpcode`. -/
theorem illegalWordsStopTheCore : Obligations.IllegalWordsStopTheCore := by
  refine ⟨fun w => ?_, fun s hrun hfetch h => ?_⟩
  · rw [illegalWord_iff]
    cases decode w <;> simp
  · obtain ⟨e, he⟩ := (illegalWord_iff _).1 h
    exact ⟨_, _, step_of_decode_error hrun hfetch he⟩

end Sys2Proof.Machine
end

section
/-! Proofs of 40_control_flow: jump, return and the skips. -/

namespace Sys2Proof

/-- The words around 5xy0 and 9xy0: in these two families R64's table lists every last nibble but 0. -/
theorem illegalWord_of_lastNibble_ne_zero {w : Word} (h1 : fieldN1 w = 5 ∨ fieldN1 w = 9) (h4 : fieldN4 w ≠ 0) :
    WellFormed.illegalWord w = true := by
  have hlast : w.toNat % 0x10 ≠ 0 := by
    rw [← toNat_fieldN4]
    exact fun h => h4 (BitVec.eq_of_toNat_eq h)
  rcases h1 with h1 | h1 <;> simp [WellFormed.illegalWord, family_eq h1, hlast]

theorem not_decodes_of_illegalWord {w : Word} (h : WellFormed.illegalWord w = true) : ¬ ∃ i, decode w = .ok i := by
  rintro ⟨i, hi⟩
  obtain ⟨e, he⟩ := (illegalWord_iff w).1 h
  exact nomatch hi.symm.trans he

end Sys2Proof

namespace Sys2Proof.Machine

/-! ### Frames -/

/-- A write of `pc` changes `pc` alone. -/
theorem keeps_setPc {s : State} {target : Word} {parts : List Part} (h : .pc ∈ parts) :
    Keeps [] nowhere parts s (setPc s target) where
  regs _ _ := rfl
  memory _ _ := rfl
  pc hpc := absurd h hpc
  index _ := rfl
  stack _ := rfl
  delay _ := rfl
  sound _ := rfl
  screen _ := rfl
  events _ := rfl
  status := rfl
  bcdPartial := rfl
  stackLimit := rfl
  input := rfl
  pending := rfl
  steps := rfl
  loaded := rfl

/-- A write of the stack and then of `pc`: what 00EE and 2nnn leave. -/
theorem keeps_setPc_withStack {s : State} {stack : List Word} {target : Word} {parts : List Part} (h : .pc ∈ parts)
    (hstack : .stack ∈ parts) : Keeps [] nowhere parts s (setPc { s with stack := stack } target) :=
  { keeps_setPc (s := s) (target := target) h with stack := fun hs => absurd hstack hs }

/-- A skip is a write of `pc` (40_control_flow R71). -/
theorem keeps_skipIf {c : Bool} {s : State} {parts : List Part} (h : .pc ∈ parts) :
    Keeps [] nowhere parts s (skipIf c s) := keeps_setPc h

/-! ### Jump and return -/

@[simp] theorem toNat_pcOperand (nnn : Addr) : (pcOperand nnn).toNat = nnn.toNat :=
  BitVec.toNat_setWidth_of_le (by decide)

theorem exec_ret_of_append {s : State} {below : List Word} {a : Word} (h : s.stack = below ++ [a]) :
    exec .ret s = .next (setPc { s with stack := below } a) := by
  simp [exec, execRet, pop_append h]

theorem exec_ret_of_nil {s : State} (h : s.stack = []) : exec .ret s = raise (.stackUnderflow (fetchAddr s)) s := by
  simp [exec, execRet, pop_nil h]

/-- Settles O20: 1nnn writes its operand to `pc`, widened without changing its value. -/
theorem jumpSetsPc : Obligations.JumpSetsPc := fun nnn _ =>
  ⟨_, rfl, toNat_pcOperand nnn, keeps_setPc (by decide)⟩

/-- Settles O22, by what 00EE does on each of the two shapes of the stack. -/
theorem returnPopsTheStack : Obligations.ReturnPopsTheStack := by
  constructor
  · intro s below a h
    exact ⟨_, exec_ret_of_append h, rfl, rfl, keeps_setPc_withStack (by decide) (by decide)⟩
  · intro s h
    exact ⟨_, exec_ret_of_nil h⟩

/-! ### Skips -/

/-- Settles O23: each skip is `skipIf` of its condition, and a last nibble other than 0 is in R64's table. -/
theorem skipsCompareRegisters : Obligations.SkipsCompareRegisters := by
  refine ⟨fun x y nn s => ⟨?seImm, ?sneImm, ?seReg, ?sneReg⟩, fun w h1 h4 => ?illegal⟩
  case illegal => exact not_decodes_of_illegalWord (illegalWord_of_lastNibble_ne_zero h1 h4)
  all_goals exact ⟨_, rfl, by simp, keeps_skipIf (by decide)⟩

end Sys2Proof.Machine
end

section
/-! Proofs of 41_alu: loads and copies, bitwise logic, additions, shifts and the random byte. -/

namespace Sys2Proof.Machine

/-! ### Flags -/

@[simp] theorem getV_setFlag_vf (s : State) (c : Bool) : getV (setFlag s c) vf = flagByte c := getV_setV_same ..

theorem getV_setFlag_ne (s : State) (c : Bool) {q : Reg} (h : q ≠ vf) : getV (setFlag s c) q = getV s q :=
  getV_setV_ne s _ h

/-- A flag survives the write of a destination other than VF. -/
theorem getV_setFlag_setV_vf (s : State) (c : Bool) {x : Reg} (w : Byte) (h : x ≠ vf) :
    getV (setV (setFlag s c) x w) vf = flagByte c := by
  rw [getV_setV_ne _ _ h.symm, getV_setFlag_vf]

theorem toNat_flagByte (c : Bool) : (flagByte c).toNat = c.toNat := by
  cases c <;> rfl

/-- The bit that 8xy6 shifts out, as a number (41_alu R90). -/
theorem toNat_flagByte_lowBitFlag (a : Byte) : (flagByte (lowBitFlag a)).toNat = a.toNat % 2 := by
  rw [toNat_flagByte, lowBitFlag, BitVec.getLsbD, Nat.toNat_testBit, Nat.pow_zero, Nat.div_one]

/-- The bit that 8xyE shifts out, as a number (41_alu R92). -/
theorem toNat_flagByte_highBitFlag (a : Byte) : (flagByte (highBitFlag a)).toNat = a.toNat / 128 := by
  have ha : a.toNat < 256 := a.isLt
  rw [toNat_flagByte, highBitFlag, BitVec.getLsbD, Nat.toNat_testBit]
  omega

/-- A flag shifted right is gone: what 8xy6 leaves in VF for `x = F` (41_alu R90). -/
theorem flagByte_shiftRight_one (c : Bool) : flagByte c >>> 1 = 0 := by
  cases c <;> rfl

/-! ### The obligations -/

/-- Settles O12: each of the two is one write of the destination. -/
theorem loadAndCopyRegisters : Obligations.LoadAndCopyRegisters := fun x y nn s =>
  ⟨⟨_, rfl, getV_setV_same s x nn, keeps_setV (by simp)⟩,
    ⟨_, rfl, getV_setV_same s x (getV s y), keeps_setV (by simp)⟩⟩

/-- Settles O13: each of the three is one write of the destination. -/
theorem bitwiseLogic : Obligations.BitwiseLogic := by
  intro x y s
  refine ⟨?or, ?and, ?xor⟩
  all_goals exact ⟨_, rfl, getV_setV_same s x _, keeps_setV (by simp)⟩

/-- Settles O14: the sum of two bytes as a number. -/
theorem addImmediateWraps : Obligations.AddImmediateWraps := by
  intro x nn s
  refine ⟨_, rfl, ?_, keeps_setV (by simp)⟩
  rw [getV_setV_same, BitVec.toNat_add]

/-- Settles O15: the sum, read before the flag is written, is written last, so that it stays for every `x`. -/
theorem addRegistersWithCarry : Obligations.AddRegistersWithCarry := by
  intro x y s
  refine ⟨_, rfl, ?sum, fun hx => ?carry, keeps_setFlag_setV (by simp) (by simp)⟩
  case sum => rw [getV_setV_same, BitVec.toNat_add]
  case carry =>
    rw [getV_setFlag_setV_vf s _ _ hx]
    simp only [flagByte, carryFlag, decide_eq_true_eq]

/-- Settles O18: for `x` other than F the flag write leaves `V[x]` to be shifted, for `x = F` the flag is shifted. -/
theorem shiftsInPlace : Obligations.ShiftsInPlace := by
  intro x y s
  refine ⟨⟨_, rfl, fun hx => ⟨?right, ?lowBit⟩, ?rightVf, keeps_setFlag_setV (by simp) (by simp)⟩,
    ⟨_, rfl, fun hx => ⟨?left, ?highBit⟩, ?leftVf, keeps_setFlag_setV (by simp) (by simp)⟩⟩
  case right => rw [getV_setV_same, getV_setFlag_ne _ _ hx, BitVec.toNat_ushiftRight, Nat.shiftRight_one]
  case lowBit => rw [getV_setFlag_setV_vf _ _ _ hx, toNat_flagByte_lowBitFlag]
  case rightVf =>
    rintro rfl
    rw [getV_setV_same, getV_setFlag_vf, flagByte_shiftRight_one]
  case left => rw [getV_setV_same, getV_setFlag_ne _ _ hx, BitVec.toNat_shiftLeft, Nat.shiftLeft_eq]
  case highBit => rw [getV_setFlag_setV_vf _ _ _ hx, toNat_flagByte_highBitFlag]
  case leftVf =>
    rintro rfl
    have hv : (getV s vf).toNat < 256 := (getV s vf).isLt
    rw [getV_setV_same, getV_setFlag_vf, BitVec.toNat_shiftLeft, Nat.shiftLeft_eq, toNat_flagByte_highBitFlag]
    omega

/-- Settles O19: the random byte of the step's sample is read before the write. -/
theorem randomByteAndImmediate : Obligations.RandomByteAndImmediate := by
  rintro x nn _ s rfl
  exact ⟨_, rfl, getV_setV_same s x _, keeps_setV (by simp)⟩

end Sys2Proof.Machine
end

section
/-! Proofs of 42_index_memory: the instructions that write the index register. -/

namespace Sys2Proof.Machine

/-! ### Frames -/

/-- A state differs from itself nowhere. -/
theorem keeps_refl (regs : List Reg) (stored : Nat → Prop) (parts : List Part) (s : State) :
    Keeps regs stored parts s s := by
  constructor <;> intros <;> rfl

/-- A write of `I` changes `I` alone, VF not among the rest (42_index_memory R97). -/
theorem keeps_setI {s : State} {w : Nat} {parts : List Part} (h : .index ∈ parts) :
    Keeps [] nowhere parts s (setI s w) :=
  { keeps_refl [] nowhere parts s with index := fun hi => absurd h hi }

/-! ### What each instruction writes -/

/-- Settles O24: each of the three is one write of `I`, of an operand that is already a natural number. -/
theorem indexRegisterWrites : Obligations.IndexRegisterWrites := by
  intro nnn x s
  refine ⟨⟨_, rfl, ?ldI, ?_⟩, ⟨_, rfl, ?addI, ?_⟩, ⟨_, rfl, ?ldF, ?_⟩⟩
  case ldI => rw [setI_i, indexOperand]
  case addI => rw [setI_i]
  case ldF => rw [setI_i, glyphAddr]
  all_goals exact keeps_setI (by decide)

end Sys2Proof.Machine
end

section
/-! Proofs of 43_timers: the instructions that start a timer. -/

namespace Sys2Proof.Machine

/-! ### A timer that was just started -/

@[simp] theorem startTimer_stored (w : Byte) (time : Time) : (startTimer w time).stored = w := rfl

@[simp] theorem startTimer_start (w : Byte) (time : Time) : (startTimer w time).start = time := rfl

/-- The time an instruction sees is its step's sample (43_timers R110, R111). -/
theorem now_eq (s : State) : now s = s.input.now := rfl

/-! ### Frames -/

/-- A write of the delay timer changes the delay timer alone. -/
theorem keeps_setDelay {s : State} {timer : Timer} {parts : List Part} (h : .delay ∈ parts) :
    Keeps [] nowhere parts s { s with dt := timer } :=
  { keeps_refl [] nowhere parts s with delay := fun hd => absurd h hd }

/-- A write of the sound timer changes the sound timer alone. -/
theorem keeps_setSound {s : State} {timer : Timer} {parts : List Part} (h : .sound ∈ parts) :
    Keeps [] nowhere parts s { s with st := timer } :=
  { keeps_refl [] nowhere parts s with sound := fun hs => absurd h hs }

/-! ### The obligation -/

/-- Settles O32: each of the two is one write of its timer, started at the register's value and the time of the step. -/
theorem timersAreSet : Obligations.TimersAreSet := by
  intro x s
  refine ⟨⟨_, rfl, ?delayStored, ?delayStart, keeps_setDelay (by decide)⟩,
    ⟨_, rfl, ?soundStored, ?soundStart, keeps_setSound (by decide)⟩⟩
  case delayStored => rw [startTimer_stored]
  case delayStart => rw [startTimer_start, now_eq]
  case soundStored => rw [startTimer_stored]
  case soundStart => rw [startTimer_start, now_eq]

end Sys2Proof.Machine
end

section
/-! Proofs of 44_display_input: the instruction that clears the screen. -/

namespace Sys2Proof.Machine

/-! ### Frames -/

/-- A new framebuffer and one event change the screen and the events alone. -/
theorem keeps_emit_setScreen {s : State} {e : Event} {fb : Framebuffer} {parts : List Part}
    (hscreen : .screen ∈ parts) (hevents : .events ∈ parts) :
    Keeps [] nowhere parts s (emit e { s with fb := fb }) :=
  { keeps_refl [] nowhere parts s with
    screen := fun h => absurd hscreen h
    events := fun h => absurd hevents h }

/-! ### The obligation -/

/-- Settles O34: the new screen is `clearScreen`, every pixel of which is 0, and `clear()` is the one event. -/
theorem clearScreenClearsAll : Obligations.ClearScreenClearsAll := by
  intro s
  refine ⟨_, rfl, ?pixels, ?output, keeps_emit_setScreen (by decide) (by decide)⟩
  case pixels =>
    intro px py
    rw [emit_fb, pixel_clearScreen]
  case output => rw [emit_out]

end Sys2Proof.Machine
end

section
/-! Proofs of 30_encoding: `decode` and `encode` are inverse to each other. -/

namespace Sys2Proof

/-! ### The fields of an encoded word (R59) -/

section
variable {n1 : Nat} (h : n1 < 16)
include h

theorem fieldN1_wordNNN (nnn : Addr) : fieldN1 (wordNNN n1 nnn) = .ofNat 4 n1 := by
  apply BitVec.eq_of_toNat_eq
  rw [toNat_fieldN1, toNat_wordNNN h, BitVec.toNat_ofNat]
  omega

theorem fieldNNN_wordNNN (nnn : Addr) : fieldNNN (wordNNN n1 nnn) = nnn := by
  apply BitVec.eq_of_toNat_eq
  rw [toNat_fieldNNN, toNat_wordNNN h]
  omega

theorem fieldN1_wordXNN (x : Reg) (nn : Byte) : fieldN1 (wordXNN n1 x nn) = .ofNat 4 n1 := by
  apply BitVec.eq_of_toNat_eq
  rw [toNat_fieldN1, toNat_wordXNN h, BitVec.toNat_ofNat]
  omega

theorem fieldX_wordXNN (x : Reg) (nn : Byte) : fieldX (wordXNN n1 x nn) = x := by
  apply Fin.ext
  rw [val_fieldX, toNat_wordXNN h]
  omega

theorem fieldNN_wordXNN (x : Reg) (nn : Byte) : fieldNN (wordXNN n1 x nn) = nn := by
  apply BitVec.eq_of_toNat_eq
  rw [toNat_fieldNN, toNat_wordXNN h]
  omega

theorem fieldN1_wordXYN (x y : Reg) (n : Nibble) : fieldN1 (wordXYN n1 x y n) = .ofNat 4 n1 := by
  apply BitVec.eq_of_toNat_eq
  rw [toNat_fieldN1, toNat_wordXYN h, BitVec.toNat_ofNat]
  omega

theorem fieldX_wordXYN (x y : Reg) (n : Nibble) : fieldX (wordXYN n1 x y n) = x := by
  apply Fin.ext
  rw [val_fieldX, toNat_wordXYN h]
  omega

theorem fieldY_wordXYN (x y : Reg) (n : Nibble) : fieldY (wordXYN n1 x y n) = y := by
  apply Fin.ext
  rw [val_fieldY, toNat_wordXYN h]
  omega

theorem fieldN4_wordXYN (x y : Reg) (n : Nibble) : fieldN4 (wordXYN n1 x y n) = n := by
  apply BitVec.eq_of_toNat_eq
  rw [toNat_fieldN4, toNat_wordXYN h]
  omega

end

/-! ### A word put together again from its fields -/

section
variable {w : Word} {n1 : Nat} (h : n1 < 16) (h1 : fieldN1 w = .ofNat 4 n1)
include h h1

theorem toNat_div_of_fieldN1 : w.toNat / 0x1000 = n1 := by
  rw [family_eq h1, BitVec.toNat_ofNat, Nat.mod_eq_of_lt h]

theorem wordNNN_fields : wordNNN n1 (fieldNNN w) = w := by
  have hw := toNat_div_of_fieldN1 h h1
  apply BitVec.eq_of_toNat_eq
  rw [toNat_wordNNN h, toNat_fieldNNN]
  omega

theorem wordXNN_fields {nn : Byte} (hnn : fieldNN w = nn) : wordXNN n1 (fieldX w) nn = w := by
  have hw := toNat_div_of_fieldN1 h h1
  apply BitVec.eq_of_toNat_eq
  rw [toNat_wordXNN h, val_fieldX, ← hnn, toNat_fieldNN]
  omega

theorem wordXYN_fields {n4 : Nibble} (h4 : fieldN4 w = n4) : wordXYN n1 (fieldX w) (fieldY w) n4 = w := by
  have hw := toNat_div_of_fieldN1 h h1
  apply BitVec.eq_of_toNat_eq
  rw [toNat_wordXYN h, val_fieldX, val_fieldY, ← h4, toNat_fieldN4]
  omega

end

/-! ### The obligations -/

/-- The decoder reads the family nibble, then the selector of the family if it has one, and finds the operands in the
fields where the encoder put them. -/
theorem decode_encode (i : Instr) : decode (encode i) = .ok i := by
  cases i
  case cls | ret => rfl
  case jp | call | ldI => simp [encode, decode, fieldN1_wordNNN, fieldNNN_wordNNN]
  case seImm | sneImm | ldImm | addImm | rnd | skp | sknp =>
    simp [encode, decode, fieldN1_wordXNN, fieldX_wordXNN, fieldNN_wordXNN]
  case ldVxDt | ldDtVx | ldStVx | addI | ldF | ldB | ldMemVx | ldVxMem =>
    simp [encode, decode, decodeF, fieldN1_wordXNN, fieldX_wordXNN, fieldNN_wordXNN]
  case seReg | sneReg | drw =>
    simp [encode, decode, fieldN1_wordXYN, fieldX_wordXYN, fieldY_wordXYN, fieldN4_wordXYN]
  case ldReg | or | and | xor | addReg | sub | shr | subn | shl =>
    simp [encode, decode, decode8, fieldN1_wordXYN, fieldX_wordXYN, fieldY_wordXYN, fieldN4_wordXYN]

/-- Settles O1: for words by `decode_encode`, for bytes because the two bytes of a word put together give the word. -/
theorem decodeOfEncode : Obligations.DecodeOfEncode := by
  intro i rest
  refine ⟨decode_encode i, ?_⟩
  show (decode (bigEndian (highByte (encode i)) (lowByte (encode i)))).map (·, rest) = .ok (i, rest)
  rw [bigEndian_bytes, decode_encode]
  rfl

/-- Family 8: the last nibble that selects the instruction is the one its encoding has. -/
theorem encode_of_decode8 {w : Word} {i : Instr} (h1 : fieldN1 w = 0x8) (h : decode8 w = .ok i) : encode i = w := by
  unfold decode8 at h
  split at h
  case h_10 => cases h
  all_goals
    cases h
    exact wordXYN_fields (by decide) h1 ‹_›

/-- Family F: the low byte that selects the instruction is the one its encoding has. -/
theorem encode_of_decodeF {w : Word} {i : Instr} (h1 : fieldN1 w = 0xF) (h : decodeF w = .ok i) : encode i = w := by
  unfold decodeF at h
  split at h
  case h_9 => cases h
  all_goals
    cases h
    exact wordXNN_fields (by decide) h1 ‹_›

/-- Settles O2, by the cases of `decode`: the fields it read make up the whole word. -/
theorem encodeOfDecode : Obligations.EncodeOfDecode := by
  intro w i h
  unfold decode at h
  split at h
  case h_1 =>
    split_ifs at h with hcls hret <;> cases h
    · exact hcls.symm
    · exact hret.symm
  case h_2 h1 | h_3 h1 | h_11 h1 => cases h; exact wordNNN_fields (by decide) h1
  case h_4 h1 | h_5 h1 | h_7 h1 | h_8 h1 | h_12 h1 => cases h; exact wordXNN_fields (by decide) h1 rfl
  case h_6 h1 | h_10 h1 =>
    split_ifs at h with h4 <;> cases h
    exact wordXYN_fields (by decide) h1 h4
  case h_9 h1 => exact encode_of_decode8 h1 h
  case h_13 h1 => cases h; exact wordXYN_fields (by decide) h1 rfl
  case h_14 h1 =>
    split_ifs at h with hskp hsknp <;> cases h
    · exact wordXNN_fields (by decide) h1 hskp
    · exact wordXNN_fields (by decide) h1 hsknp
  case h_15 h1 => exact encode_of_decodeF h1 h
  case h_16 => cases h

/-- Settles O5: eight words of the table, each run through `decode`. -/
theorem sampleWordsDecode : Obligations.SampleWordsDecode := by
  refine ⟨?_, ?_, ?_, ?_, ?_, ?_, ?_, ?_⟩ <;> rfl

end Sys2Proof
end

section
/-! Proofs of 30_encoding and 70_reset_and_hazards: what a step does around `exec`, and a turn of the run loop. -/

namespace Sys2Proof.Machine

/-! ### The step, by the way it goes -/

theorem step_of_decode_ok {s : State} {i : Instr} (hrun : s.status = .running) (hfetch : Fetchable s)
    (hi : decode (fetchWord s) = .ok i) : step s = exec i (advancePc (sampleInput s)) := by
  have hrange : accessInRange s.pc.toNat 2 = true := (accessInRange_iff _ _).2 (.inr (by omega))
  have hword : fetchWord (sampleInput s) = fetchWord s := rfl
  simp [step, beginStep, fetchDecode, hrun, hrange, hword, hi]

theorem step_of_not_fetchable {s : State} (hrun : s.status = .running) (hfetch : ¬ Fetchable s) :
    step s = raise (.memoryBounds s.pc (firstOutOfRange s.pc.toNat)) (sampleInput s) := by
  have hrange : ¬ accessInRange s.pc.toNat 2 = true := by
    rw [accessInRange_iff]
    omega
  simp [step, beginStep, fetchDecode, hrun, hrange, raise]

theorem step_of_not_running {s : State} (h : s.status ≠ .running) : step s = .refused .coreEnded := by
  cases hs : s.status with
  | running => exact absurd hs h
  | closed | faulted => simp [step, beginStep, hs]

theorem runOnce_of_not_running {s : State} (h : s.status ≠ .running) : runOnce s = .refused .coreEnded := by
  cases hs : s.status with
  | running => exact absurd hs h
  | closed | faulted => simp [runOnce, hs]

theorem runOnce_of_closed {s : State} (hrun : s.status = .running) (h : (nextInput s).closed = true) :
    runOnce s = .next { emit (.closeQuery true) s with status := .closed } := by
  simp [runOnce, hrun, h]

theorem runOnce_of_open {s : State} (hrun : s.status = .running) (h : (nextInput s).closed = false) :
    runOnce s = step (emit (.closeQuery false) s) := by
  simp [runOnce, hrun, h]

/-! ### The obligations -/

/-- Settles O6: the word the step decodes is the one of the two bytes at `pc`. -/
theorem stepRunsDecodedInstruction : Obligations.StepRunsDecodedInstruction := fun _ _ hrun hfetch hi =>
  step_of_decode_ok hrun hfetch hi

/-- Settles O8: the whole-access check of the fetch fails before anything but the inputs has changed. -/
theorem fetchOutOfRangeFaults : Obligations.FetchOutOfRangeFaults := fun _ hrun hfetch =>
  step_of_not_fetchable hrun hfetch

/-- Settles O9: `decode` fails on a word of R64's table, after `pc` has advanced. -/
theorem unknownOpcodeLeavesAdvancedPc : Obligations.UnknownOpcodeLeavesAdvancedPc := by
  intro s hrun hfetch h
  obtain ⟨e, he⟩ := (illegalWord_iff _).1 h
  exact step_of_decode_error hrun hfetch he

/-- Settles O10: both look at the run status first. -/
theorem endedCoreRefusesSteps : Obligations.EndedCoreRefusesSteps := fun _ h =>
  ⟨step_of_not_running h, runOnce_of_not_running h⟩

/-- Settles O11, by the answer of `isClosed()`. -/
theorem runLoopAsksToCloseFirst : Obligations.RunLoopAsksToCloseFirst := by
  intro s hrun
  cases h : (nextInput s).closed with
  | true => exact runOnce_of_closed hrun h
  | false => exact runOnce_of_open hrun h

end Sys2Proof.Machine
end

section
/-! Proofs of 41_alu: the subtractions, and the operands that are VF. -/

namespace Sys2Proof.Machine

/-- A byte difference as a number (41_alu R89, R91). -/
theorem toNat_byte_sub (a b : Byte) : (a - b).toNat = (a.toNat + 256 - b.toNat) % 256 := by
  rw [BitVec.toNat_sub]
  have := b.isLt
  omega

/-- The flag of a subtraction, written out (41_alu R81). -/
theorem flagByte_greaterFlag (a b : Byte) : flagByte (greaterFlag a b) = if a.toNat > b.toNat then 1 else 0 := by
  simp only [flagByte, greaterFlag, decide_eq_true_eq]

/-- Settles O16: a flag write that touches neither operand, and then the difference. -/
theorem subtractRegisters : Obligations.SubtractRegisters := by
  intro x y s hx hy
  refine ⟨⟨_, rfl, ?sub, ?greater, keeps_setFlag_setV (by simp) (by simp)⟩,
    ⟨_, rfl, ?subn, ?less, keeps_setFlag_setV (by simp) (by simp)⟩⟩
  case sub | subn =>
    rw [getV_setV_same, getV_setFlag_ne _ _ hx, getV_setFlag_ne _ _ hy, toNat_byte_sub]
  case greater | less =>
    rw [getV_setFlag_setV_vf _ _ _ hx, flagByte_greaterFlag]

/-- Settles O17: each form is a flag write and then a register write; the sum was read before the flag was written, the
operands of a difference are read after it. -/
theorem vfAsOperand : Obligations.VfAsOperand := by
  intro x y s hx hy
  refine ⟨⟨_, rfl, ?addF, keeps_setFlag_setV (by simp) (by simp)⟩,
    ⟨_, rfl, getV_setFlag_setV_vf _ _ _ hx, getV_setV_same .., keeps_setFlag_setV (by simp) (by simp)⟩,
    ⟨_, rfl, getV_setV_same .., keeps_setFlag_setV (by simp) (by simp)⟩,
    ⟨_, rfl, ?subF, keeps_setFlag_setV (by simp) (by simp)⟩,
    ⟨_, rfl, ?flagSub, ?subByF, keeps_setFlag_setV (by simp) (by simp)⟩,
    ⟨_, rfl, ?subFF, keeps_setFlag_setV (by simp) (by simp)⟩,
    ⟨_, rfl, ?subnF, keeps_setFlag_setV (by simp) (by simp)⟩,
    ⟨_, rfl, ?flagSubn, ?subnByF, keeps_setFlag_setV (by simp) (by simp)⟩,
    ⟨_, rfl, ?subnFF, keeps_setFlag_setV (by simp) (by simp)⟩⟩
  case addF => rw [getV_setV_same]
  case subF | subnF =>
    rw [getV_setV_same, getV_setFlag_vf, getV_setFlag_ne _ _ hy, flagByte_greaterFlag]
  case flagSub | flagSubn => rw [getV_setFlag_setV_vf _ _ _ hx, flagByte_greaterFlag]
  case subByF | subnByF =>
    rw [getV_setV_same, getV_setFlag_setV_vf _ _ _ hx, getV_setFlag_vf, getV_setFlag_ne _ _ hx]
  case subFF | subnFF => exact (getV_setV_same ..).trans (BitVec.sub_self _)

end Sys2Proof.Machine
end

section
/-! Proofs of 40_control_flow: the call. -/

namespace Sys2Proof.Machine

theorem stackFull_iff (s : State) : stackFull s = true ↔ s.stackLimit = some s.stack.length := beq_iff_eq

theorem exec_call_of_room {s : State} (nnn : Addr) (h : s.stackLimit ≠ some s.stack.length) :
    exec (.call nnn) s = .next (setPc (push s s.pc) (pcOperand nnn)) := by
  simp [exec, execCall, stackFull_iff, h]

theorem exec_call_of_full {s : State} (nnn : Addr) (h : s.stackLimit = some s.stack.length) :
    exec (.call nnn) s = raise (.stackOverflow (fetchAddr s)) s := by
  simp [exec, execCall, stackFull_iff, h]

/-- Settles O21, by what 2nnn does below and at the limit. -/
theorem callPushesReturnAddress : Obligations.CallPushesReturnAddress := fun nnn _ =>
  ⟨fun h => ⟨_, exec_call_of_room nnn h, rfl, toNat_pcOperand nnn, keeps_setPc_withStack (by decide) (by decide)⟩,
    fun h => exec_call_of_full nnn h⟩

end Sys2Proof.Machine
end

section
/-! Proofs of 42_index_memory: the stores and loads through the index register. -/

namespace Sys2Proof

open Sys2Proof.Machine

/-! ### Frames -/

/-- A frame that lets more change. -/
theorem Keeps.mono {regs regs' : List Reg} {stored stored' : Nat → Prop} {parts parts' : List Part} {s t : State}
    (h : Keeps regs stored parts s t) (hregs : regs ⊆ regs') (hstored : ∀ a, stored a → stored' a)
    (hparts : parts ⊆ parts') : Keeps regs' stored' parts' s t :=
  { h with
    regs := fun r hr => h.regs r fun hr' => hr (hregs hr')
    memory := fun a ha => h.memory a fun ha' => ha (hstored a ha')
    pc := fun hp => h.pc fun hp' => hp (hparts hp')
    index := fun hp => h.index fun hp' => hp (hparts hp')
    stack := fun hp => h.stack fun hp' => hp (hparts hp')
    delay := fun hp => h.delay fun hp' => hp (hparts hp')
    sound := fun hp => h.sound fun hp' => hp (hparts hp')
    screen := fun hp => h.screen fun hp' => hp (hparts hp')
    events := fun hp => h.events fun hp' => hp (hparts hp') }

/-- One change after another, in the same frame. -/
theorem Keeps.trans {regs : List Reg} {stored : Nat → Prop} {parts : List Part} {s t u : State}
    (h : Keeps regs stored parts s t) (h' : Keeps regs stored parts t u) : Keeps regs stored parts s u where
  regs r hr := (h'.regs r hr).trans (h.regs r hr)
  memory a ha := (h'.memory a ha).trans (h.memory a ha)
  pc hp := (h'.pc hp).trans (h.pc hp)
  index hp := (h'.index hp).trans (h.index hp)
  stack hp := (h'.stack hp).trans (h.stack hp)
  delay hp := (h'.delay hp).trans (h.delay hp)
  sound hp := (h'.sound hp).trans (h.sound hp)
  screen hp := (h'.screen hp).trans (h.screen hp)
  events hp := (h'.events hp).trans (h.events hp)
  status := h'.status.trans h.status
  bcdPartial := h'.bcdPartial.trans h.bcdPartial
  stackLimit := h'.stackLimit.trans h.stackLimit
  input := h'.input.trans h.input
  pending := h'.pending.trans h.pending
  steps := h'.steps.trans h.steps
  loaded := h'.loaded.trans h.loaded

end Sys2Proof

namespace Sys2Proof.Machine

/-- One event changes the events alone. -/
theorem keeps_emit {s : State} {e : Event} {parts : List Part} (h : .events ∈ parts) :
    Keeps [] nowhere parts s (emit e s) :=
  { keeps_refl [] nowhere parts s with events := fun he => absurd h he }

/-- A load of V0..Vx changes these registers alone (42_index_memory R102). -/
theorem keeps_loadRegs {s : State} {x : Reg} {regs : List Reg} (h : ∀ r, r ≤ x → r ∈ regs) :
    Keeps regs nowhere [] s (loadRegs s x) where
  regs r hr := by rw [getV_loadRegs, if_neg fun hx => hr (h r hx)]
  memory a _ := congrArg (Memory.read · a) (loadRegs_mem s x)
  pc _ := loadRegs_pc s x
  index _ := loadRegs_i s x
  stack _ := loadRegs_stack s x
  delay _ := loadRegs_dt s x
  sound _ := loadRegs_st s x
  screen _ := loadRegs_fb s x
  events _ := loadRegs_out s x
  status := loadRegs_status s x
  bcdPartial := loadRegs_bcdPartial s x
  stackLimit := loadRegs_stackLimit s x
  input := loadRegs_input s x
  pending := loadRegs_pending s x
  steps := loadRegs_steps s x
  loaded := loadRegs_loaded s x

/-! ### Fx55 and Fx65, in range and past 0xFFF -/

theorem accessInRange_regs_iff (base : Nat) (x : Reg) :
    accessInRange base (x.val + 1) = true ↔ base + x.val ≤ 0xFFF := by
  rw [accessInRange_iff]
  omega

theorem exec_ldMemVx_inRange {x : Reg} {s : State} (h : s.i + x.val ≤ 0xFFF) :
    exec (.ldMemVx x) s = .next { s with mem := Memory.writeBytes s.mem s.i (regsUpTo s x) } :=
  withAccess_inRange ((accessInRange_regs_iff ..).2 h) ..

theorem exec_ldMemVx_outOfRange {x : Reg} {s : State} (h : s.i + x.val > 0xFFF) :
    exec (.ldMemVx x) s = raise (.memoryBounds (fetchAddr s) (firstOutOfRange s.i)) s :=
  withAccess_outOfRange (fun hr => absurd ((accessInRange_regs_iff ..).1 hr) (by omega)) ..

theorem exec_ldVxMem_inRange {x : Reg} {s : State} (h : s.i + x.val ≤ 0xFFF) :
    exec (.ldVxMem x) s = .next (loadRegs s x) :=
  withAccess_inRange ((accessInRange_regs_iff ..).2 h) ..

theorem exec_ldVxMem_outOfRange {x : Reg} {s : State} (h : s.i + x.val > 0xFFF) :
    exec (.ldVxMem x) s = raise (.memoryBounds (fetchAddr s) (firstOutOfRange s.i)) s :=
  withAccess_outOfRange (fun hr => absurd ((accessInRange_regs_iff ..).1 hr) (by omega)) ..

/-- A completed Fx55 was in range. -/
theorem exec_ldMemVx_next {x : Reg} {s t : State} (h : exec (.ldMemVx x) s = .next t) :
    s.i + x.val ≤ 0xFFF ∧ t = { s with mem := Memory.writeBytes s.mem s.i (regsUpTo s x) } := by
  obtain ⟨hrange, hbody⟩ := withAccess_next h
  cases hbody
  exact ⟨(accessInRange_regs_iff ..).1 hrange, rfl⟩

theorem lt_length_regsUpTo (s : State) {x r : Reg} (hr : r ≤ x) : r.val < (regsUpTo s x).length := by
  rw [length_regsUpTo]
  exact Nat.lt_succ_of_le hr

/-- The stored registers read back (42_index_memory R101). -/
theorem read_writeBytes_regsUpTo {s : State} {x r : Reg} (h : s.i + x.val ≤ 0xFFF) (hr : r ≤ x) :
    Memory.read (Memory.writeBytes s.mem s.i (regsUpTo s x)) (s.i + r.val) = getV s r := by
  have hr' : r.val ≤ x.val := hr
  rw [Memory.read_writeBytes_inside _ _ _ _ (lt_length_regsUpTo s hr) (by omega), getElem_regsUpTo]

/-! ### Fx33: the digits and its three ways -/

theorem length_bcdDigits (w : Byte) : (bcdDigits w).length = 3 := rfl

theorem map_toNat_bcdDigits (w : Byte) :
    (bcdDigits w).map BitVec.toNat = [w.toNat / 100, w.toNat / 10 % 10, w.toNat % 10] := by
  have hw : w.toNat < 256 := w.isLt
  simp only [bcdDigits, List.map_cons, List.map_nil, BitVec.toNat_ofNat, List.cons.injEq, and_true]
  omega

theorem bcdInRange_iff (i : Nat) : bcdInRange i = true ↔ i ≤ 0xFFD := by
  simp only [bcdInRange, decide_eq_true_eq]
  omega

theorem exec_ldB_inRange {x : Reg} {s : State} (h : s.i ≤ 0xFFD) :
    exec (.ldB x) s = .next { s with mem := Memory.writeBytes s.mem s.i (bcdDigits (getV s x)) } := by
  simp [exec, execLdB, bcdInRange_iff, h]

theorem exec_ldB_partial {x : Reg} {s : State} (h : s.i > 0xFFD) (hp : s.bcdPartial = true) :
    exec (.ldB x) s = .next (emit (.bcdRange (fetchAddr s) s.i)
      { s with mem := Memory.writeBytes s.mem s.i (bcdFitting s.i (getV s x)) }) := by
  have hrange : ¬ s.i ≤ 0xFFD := by omega
  simp [exec, execLdB, bcdInRange_iff, hrange, hp]

theorem exec_ldB_report {x : Reg} {s : State} (h : s.i > 0xFFD) (hp : s.bcdPartial = false) :
    exec (.ldB x) s = .next (emit (.bcdRange (fetchAddr s) s.i) s) := by
  have hrange : ¬ s.i ≤ 0xFFD := by omega
  simp [exec, execLdB, bcdInRange_iff, hrange, hp]

theorem length_bcdFitting (i : Nat) (w : Byte) : (bcdFitting i w).length = min (0x1000 - i) 3 := by
  rw [bcdFitting, List.length_take, length_bcdDigits]

/-- The first digits, stored, read back (42_index_memory R99, R100). -/
theorem toNat_read_digits {i k : Nat} (m : Memory) {w : Byte} {ws : List Byte} (hws : ws <+: bcdDigits w)
    (hk : k < ws.length) (hi : i + k < 0x1000) :
    (Memory.read (Memory.writeBytes m i ws) (i + k)).toNat =
      [w.toNat / 100, w.toNat / 10 % 10, w.toNat % 10].getD k 0 := by
  have hk' : k < (bcdDigits w).length := hk.trans_le hws.length_le
  rw [Memory.read_writeBytes_inside m i ws k hk hi, hws.getElem hk, ← map_toNat_bcdDigits]
  simp [List.getD, hk']

/-! ### The obligations -/

/-- Settles O25: in range Fx33 is one run of bytes written to memory, the digits of `V[x]`. -/
theorem decimalDigitsStored : Obligations.DecimalDigitsStored := by
  intro x s h
  have digit : ∀ k, k < 3 → s.i + k < 0x1000 → _ := fun k =>
    toNat_read_digits (i := s.i) s.mem (List.prefix_refl (bcdDigits (getV s x)))
  exact ⟨_, exec_ldB_inRange h, digit 0 (by decide) (by omega), digit 1 (by decide) (by omega),
    digit 2 (by decide) (by omega), keeps_writeBytes (s := s) (ws := bcdDigits (getV s x))⟩

/-- Settles O26, by `BCD_PARTIAL`: the report alone, or the digits that fit and then the report. -/
theorem decimalOutOfRangeReports : Obligations.DecimalOutOfRangeReports := by
  intro x s h
  cases hp : s.bcdPartial with
  | false => exact ⟨_, exec_ldB_report h hp, rfl, fun _ => keeps_emit (by decide), fun hp' => nomatch hp'⟩
  | true =>
    refine ⟨_, exec_ldB_partial h hp, rfl, fun hp' => (nomatch hp'), fun _ => ⟨?frame, fun hi => ?hundreds,
      fun hi => ?tens⟩⟩
    case frame =>
      refine (keeps_writeBytes.mono (List.Subset.refl _) ?fits (List.nil_subset _)).trans
        ((keeps_emit (by decide)).mono (List.Subset.refl _) (fun _ => False.elim) (List.Subset.refl _))
      intro a ha
      simp only [span, length_bcdFitting] at ha ⊢
      omega
    case hundreds =>
      exact toNat_read_digits (k := 0) s.mem (List.take_prefix ..) (by rw [length_bcdFitting]; omega) (by omega)
    case tens =>
      exact toNat_read_digits (k := 1) s.mem (List.take_prefix ..) (by rw [length_bcdFitting]; omega) (by omega)

/-- Settles O27: in range Fx55 is one run of bytes written to memory, the registers. -/
theorem registersStored : Obligations.RegistersStored := by
  intro x s h
  refine ⟨_, exec_ldMemVx_inRange h, fun r hr => read_writeBytes_regsUpTo h hr, ?frame⟩
  rw [← length_regsUpTo s x]
  exact keeps_writeBytes

/-- Settles O28: in range Fx65 is `loadRegs`. -/
theorem registersLoaded : Obligations.RegistersLoaded := by
  intro x s h
  refine ⟨_, exec_ldVxMem_inRange h, fun r hr => ?byte, keeps_loadRegs fun r hr => by simpa using hr⟩
  rw [getV_loadRegs, if_pos hr]

/-- Settles O30: the load reads the run of bytes that the store wrote, at the same `I`. -/
theorem storeThenLoadRestores : Obligations.StoreThenLoadRestores := by
  intro x s t v h
  obtain ⟨hrange, rfl⟩ := exec_ldMemVx_next h
  refine ⟨_, exec_ldVxMem_inRange hrange, fun r hr => ?_⟩
  rw [getV_loadRegs, if_pos hr]
  exact read_writeBytes_regsUpTo hrange hr

/-- The next fetch after a run of bytes was written (20_memory R52). -/
theorem fetchWord_of_writeBytes {s t : State} {ws : List Byte} (hmem : t.mem = Memory.writeBytes s.mem s.i ws)
    (hpc : t.pc = s.pc) (h : ws = [] ∨ s.i + ws.length ≤ 0x1000) :
    fetchWord t = bigEndian (patched s.mem s.i ws s.pc.toNat) (patched s.mem s.i ws (s.pc.toNat + 1)) := by
  simp only [fetchWord, hmem, hpc, read_writeBytes_eq_patched s.mem h]

/-- Settles O31: whatever a store writes, it is a run of bytes inside memory, and the fetch reads it there. -/
theorem storeSeenByNextFetch : Obligations.StoreSeenByNextFetch := by
  refine fun x s => ⟨fun h => ?registers, ?digits⟩
  case registers =>
    refine ⟨_, regsUpTo s x, exec_ldMemVx_inRange h, length_regsUpTo s x, fun r hr => ?_,
      fetchWord_of_writeBytes rfl rfl (.inr ?_)⟩
    · rw [List.getElem?_eq_getElem (lt_length_regsUpTo s hr), getElem_regsUpTo]
    · rw [length_regsUpTo]
      omega
  case digits =>
    by_cases h : s.i ≤ 0xFFD
    · refine ⟨_, _, bcdDigits (getV s x), exec_ldB_inRange h, map_toNat_bcdDigits _, (if_pos h).symm,
        fetchWord_of_writeBytes rfl rfl (.inr ?_)⟩
      rw [length_bcdDigits]
      omega
    · have hout : s.i > 0xFFD := by omega
      cases hp : s.bcdPartial with
      | false =>
        exact ⟨_, [], bcdDigits (getV s x), exec_ldB_report hout hp, map_toNat_bcdDigits _, by simp [h],
          fetchWord_of_writeBytes rfl rfl (.inl rfl)⟩
      | true =>
        refine ⟨_, bcdFitting s.i (getV s x), bcdDigits (getV s x), exec_ldB_partial hout hp, map_toNat_bcdDigits _,
          by simp [h, bcdFitting], fetchWord_of_writeBytes rfl rfl ?_⟩
        rw [← List.length_eq_zero_iff, length_bcdFitting]
        omega

end Sys2Proof.Machine
end

section
/-! Proofs of 43_timers: the delay timer's read. -/

namespace Sys2Proof.Machine

/-- A timer reads at least 0. -/
theorem timerValue_nonneg (t : Timer) (time : Time) : 0 ≤ timerValue t time := le_max_left ..

/-- A timer that was not started in the future reads at most its stored value (43_timers R106). -/
theorem timerValue_le_stored {t : Timer} {time : Time} (h : t.start ≤ time) : timerValue t time ≤ t.stored.toNat := by
  have elapsed : 0 ≤ (Config.timerRate * (time - t.start)).floor := by
    rw [Rat.le_floor_iff, Int.cast_zero]
    exact mul_nonneg (by decide) (sub_nonneg.2 h)
  rw [timerValue]
  omega

/-- So its value is a register's value (43_timers R109). -/
theorem toNat_timerByte {t : Timer} {time : Time} (h : t.start ≤ time) :
    ((timerByte t time).toNat : Int) = timerValue t time := by
  have := timerValue_nonneg t time
  have := timerValue_le_stored h
  have := t.stored.isLt
  rw [timerByte, BitVec.toNat_ofInt]
  omega

/-- Settles O33: Fx07 is one write of the value the timer reads, which fits a register. -/
theorem delayTimerIsRead : Obligations.DelayTimerIsRead := by
  intro x s h
  refine ⟨_, rfl, ?_, keeps_setV (by simp)⟩
  rw [getV_setV_same, now_eq, toNat_timerByte h]
  rfl

end Sys2Proof.Machine
end

section
/-! Proofs of 44_display_input: the draw and the key skips, and with them the accesses of 20_memory R46 that stop. -/

namespace Sys2Proof.Machine

/-! ### The draw -/

/-- What Dxyn in range leaves (44_display_input R123). -/
def afterDraw (x y : Reg) (n : Nibble) (s : State) : State :=
  emit .displayShow (setFlag
    (emit (.displayDraw (getV s x) (getV s y) (spriteRows s n) (drawAt x y n s).collided)
      { s with fb := (drawAt x y n s).fb }) (drawAt x y n s).collided)

@[simp] theorem afterDraw_fb (x y : Reg) (n : Nibble) (s : State) : (afterDraw x y n s).fb = (drawAt x y n s).fb := rfl

@[simp] theorem afterDraw_mem (x y : Reg) (n : Nibble) (s : State) : (afterDraw x y n s).mem = s.mem := rfl

@[simp] theorem afterDraw_i (x y : Reg) (n : Nibble) (s : State) : (afterDraw x y n s).i = s.i := rfl

@[simp] theorem getV_afterDraw_vf (x y : Reg) (n : Nibble) (s : State) :
    getV (afterDraw x y n s) vf = flagByte (drawAt x y n s).collided := by
  rw [afterDraw, getV_emit, getV_setFlag_vf]

theorem afterDraw_out (x y : Reg) (n : Nibble) (s : State) : (afterDraw x y n s).out =
    s.out ++ [.displayDraw (getV s x) (getV s y) (spriteRows s n) (drawAt x y n s).collided, .displayShow] := by
  simp [afterDraw]

theorem keeps_afterDraw (x y : Reg) (n : Nibble) (s : State) :
    Keeps [vf] nowhere [.screen, .events] s (afterDraw x y n s) := by
  have drawn := keeps_emit_setScreen (s := s) (fb := (drawAt x y n s).fb) (parts := [.screen, .events])
    (e := .displayDraw (getV s x) (getV s y) (spriteRows s n) (drawAt x y n s).collided) (by decide) (by decide)
  exact ((drawn.mono (List.nil_subset _) (fun _ => id) (List.Subset.refl _)).trans
    ((keeps_setV (by decide)).mono (List.Subset.refl _) (fun _ => id) (List.nil_subset _))).trans
    ((keeps_emit (by decide)).mono (List.nil_subset _) (fun _ => id) (List.Subset.refl _))

/-- The draw of Dxyn toggles what its sprite covers (44_display_input R115). -/
theorem toggles_drawAt (x y : Reg) (n : Nibble) (s : State) :
    Toggles (fun px py => covers (getV s x) (getV s y) (spriteRows s n) px.val py.val) ⟨s.fb, false⟩
      (drawAt x y n s) :=
  toggles_drawSprite ..

/-- When a draw collides (44_display_input R115). -/
theorem collided_drawAt (x y : Reg) (n : Nibble) (s : State) : (drawAt x y n s).collided = true ↔
    ∃ px py, covers (getV s x) (getV s y) (spriteRows s n) px.val py.val = true ∧ pixel s.fb px py = true := by
  simp [(toggles_drawAt x y n s).collided]

theorem accessInRange_rows_iff (base : Nat) (n : Nibble) :
    accessInRange base n.toNat = true ↔ n = 0 ∨ base + n.toNat ≤ 0x1000 := by
  rw [accessInRange_iff, ← BitVec.toNat_inj]
  rfl

theorem exec_drw_inRange (x y : Reg) {n : Nibble} {s : State} (h : n = 0 ∨ s.i + n.toNat ≤ 0x1000) :
    exec (.drw x y n) s = .next (afterDraw x y n s) :=
  withAccess_inRange ((accessInRange_rows_iff ..).2 h) ..

theorem exec_drw_outOfRange (x y : Reg) {n : Nibble} {s : State} (h : ¬ (n = 0 ∨ s.i + n.toNat ≤ 0x1000)) :
    exec (.drw x y n) s = raise (.memoryBounds (fetchAddr s) (firstOutOfRange s.i)) s :=
  withAccess_outOfRange (fun hr => h ((accessInRange_rows_iff ..).1 hr)) ..

/-- A completed Dxyn was in range. -/
theorem exec_drw_next {x y : Reg} {n : Nibble} {s t : State} (h : exec (.drw x y n) s = .next t) :
    (n = 0 ∨ s.i + n.toNat ≤ 0x1000) ∧ t = afterDraw x y n s := by
  obtain ⟨hrange, hbody⟩ := withAccess_next h
  cases hbody
  exact ⟨(accessInRange_rows_iff ..).1 hrange, rfl⟩

/-- Settles O35, by what the draw toggles. -/
theorem drawTogglesCoveredPixels : Obligations.DrawTogglesCoveredPixels := by
  intro x y n s h
  refine ⟨_, spriteRows s n, _, exec_drw_inRange x y h, Memory.length_readBytes .., fun j hj => ?rows,
    (toggles_drawAt x y n s).pixels, collided_drawAt x y n s, getV_afterDraw_vf x y n s, afterDraw_out x y n s,
    keeps_afterDraw x y n s⟩
  have hj' : j < (spriteRows s n).length := by rwa [spriteRows, Memory.length_readBytes]
  rw [List.getElem?_eq_getElem hj']
  exact congrArg some (Memory.getElem_readBytes _ _ _ _ hj')

/-- Settles O36: the second draw toggles the same pixels again, and finds a covered pixel 1 exactly if it was 0 at
first. -/
theorem drawTwiceRestoresScreen : Obligations.DrawTwiceRestoresScreen := by
  intro x y n s t r h hfb hmem hi hx hy
  obtain ⟨hrange, rfl⟩ := exec_drw_next h
  rw [afterDraw_fb] at hfb
  rw [afterDraw_mem] at hmem
  rw [afterDraw_i] at hi
  have rows_eq : spriteRows r n = spriteRows s n := by rw [spriteRows, hmem, hi, spriteRows]
  have first := (toggles_drawAt x y n s).pixels
  have second := (toggles_drawAt x y n r).pixels
  have collides := collided_drawAt x y n r
  simp only [hfb, hx, hy, rows_eq, first] at second collides
  refine ⟨_, exec_drw_inRange x y (by rwa [hi]), ?screen, ?collision, ?flag⟩
  case screen =>
    refine framebuffer_ext fun px py => ?_
    rw [afterDraw_fb, second, Bool.xor_assoc, Bool.xor_self, Bool.xor_false]
  case collision =>
    have flag_one : getV (afterDraw x y n r) vf = 1 ↔ (drawAt x y n r).collided = true := by
      rw [getV_afterDraw_vf]
      cases (drawAt x y n r).collided <;> decide
    rw [flag_one, collides]
    refine exists_congr fun px => exists_congr fun py => and_congr_right fun hc => ?_
    simp [hc]
  case flag =>
    rw [getV_afterDraw_vf]
    cases (drawAt x y n r).collided <;> decide

/-- Settles O29: the whole-access check of each of the three fails. -/
theorem outOfRangeAccessFaults : Obligations.OutOfRangeAccessFaults := by
  rintro x y n s _ _ rfl rfl
  refine ⟨fun h => ⟨exec_ldMemVx_outOfRange h, exec_ldVxMem_outOfRange h⟩, fun hn h => ?_⟩
  refine exec_drw_outOfRange x y ?_
  rintro (rfl | hrange)
  · exact hn rfl
  · omega

/-! ### The key skips -/

/-- Settles O37, by the answer to the one query. -/
theorem keySkipsFollowTheKey : Obligations.KeySkipsFollowTheKey := by
  rintro x s _ hk rfl
  have asked (take : Bool → Bool) := (keySkip_cases x take s).resolve_left fun h => absurd h.1 (by omega)
  refine ⟨⟨_, (asked id).2, ?skp, rfl, ?_⟩, ⟨_, (asked not).2, ?sknp, rfl, ?_⟩⟩
  case skp => rw [skipIf_pc, emit_pc, id_eq, isPressed]
  case sknp =>
    rw [skipIf_pc, emit_pc, isPressed]
    cases s.input.keys.getLsbD (getV s x).toNat <;> rfl
  all_goals exact (keeps_emit (by decide)).trans (keeps_skipIf (by decide))

/-- Settles O38: the check of the key number comes before the query. -/
theorem keyAboveFifteenFaults : Obligations.KeyAboveFifteenFaults := by
  rintro x s _ _ hk rfl rfl
  have stopped (take : Bool → Bool) := (keySkip_cases x take s).resolve_right fun h => absurd h.1 (by omega)
  exact ⟨(stopped id).2, (stopped not).2⟩

end Sys2Proof.Machine
end

section
/-! Proofs about every instruction: what an instruction may change, the errors it may raise, and the inputs it does not
read. -/

namespace Sys2Proof.Machine

/-! ### What a completed instruction did, where it could have stopped instead -/

theorem exec_ret_next {s t : State} (h : exec .ret s = .next t) :
    ∃ below a, s.stack = below ++ [a] ∧ t = setPc { s with stack := below } a := by
  rcases stack_cases s with hs | ⟨below, a, hs⟩
  · rw [exec_ret_of_nil hs] at h
    cases h
  · rw [exec_ret_of_append hs] at h
    cases h
    exact ⟨below, a, hs, rfl⟩

theorem exec_call_next {nnn : Addr} {s t : State} (h : exec (.call nnn) s = .next t) :
    s.stackLimit ≠ some s.stack.length ∧ t = setPc (push s s.pc) (pcOperand nnn) := by
  by_cases hs : s.stackLimit = some s.stack.length
  · rw [exec_call_of_full nnn hs] at h
    cases h
  · rw [exec_call_of_room nnn hs] at h
    cases h
    exact ⟨hs, rfl⟩

theorem keySkip_next {x : Reg} {take : Bool → Bool} {s t : State} (h : keySkip x take s = .next t) :
    t = skipIf (take (isPressed s (getV s x))) (emit (.keyQuery (getV s x) (isPressed s (getV s x))) s) := by
  rcases keySkip_cases x take s with ⟨-, hs⟩ | ⟨-, hs⟩
  · rw [hs] at h
    cases h
  · rw [hs] at h
    cases h
    rfl

theorem exec_ldVxMem_next {x : Reg} {s t : State} (h : exec (.ldVxMem x) s = .next t) : t = loadRegs s x := by
  obtain ⟨-, hbody⟩ := withAccess_next h
  cases hbody
  rfl

/-- Fx33 always completes: it writes some digits, all of them without a report (42_index_memory R99, R100). -/
theorem exec_ldB_cases (x : Reg) (s : State) : ∃ ws : List Byte,
    exec (.ldB x) s = .next { s with mem := Memory.writeBytes s.mem s.i ws } ∨
    exec (.ldB x) s = .next (emit (.bcdRange (fetchAddr s) s.i) { s with mem := Memory.writeBytes s.mem s.i ws }) := by
  by_cases h : s.i ≤ 0xFFD
  · exact ⟨_, .inl (exec_ldB_inRange h)⟩
  · rcases Bool.eq_false_or_eq_true s.bcdPartial with hp | hp
    · exact ⟨_, .inr (exec_ldB_partial (by omega) hp)⟩
    · exact ⟨[], .inr (exec_ldB_report (by omega) hp)⟩

theorem exec_ldB_next {x : Reg} {s t : State} (h : exec (.ldB x) s = .next t) : ∃ ws : List Byte,
    t = { s with mem := Memory.writeBytes s.mem s.i ws } ∨
    t = emit (.bcdRange (fetchAddr s) s.i) { s with mem := Memory.writeBytes s.mem s.i ws } := by
  obtain ⟨ws, hs | hs⟩ := exec_ldB_cases x s
  all_goals
    rw [hs] at h
    cases h
  · exact ⟨ws, .inl rfl⟩
  · exact ⟨ws, .inr rfl⟩

/-! ### The frame of every instruction -/

/-- The registers an instruction may write. -/
def destRegs : Instr → List Reg
  | .ldImm x _ | .addImm x _ | .rnd x _ | .ldReg x _ | .or x _ | .and x _ | .xor x _ | .ldVxDt x => [x]
  | .addReg x _ | .sub x _ | .shr x _ | .subn x _ | .shl x _ => [x, vf]
  | .drw _ _ _ => [vf]
  | .ldVxMem x => (List.finRange 16).filter (· ≤ x)
  | _ => []

/-- The addresses an instruction may store at. -/
def mayStore : Instr → Nat → Prop
  | .ldB _ | .ldMemVx _ => fun _ => True
  | _ => nowhere

/-- The parts an instruction may change. -/
def mayChange : Instr → List Part
  | .cls | .drw _ _ _ => [.screen, .events]
  | .ret | .call _ => [.pc, .stack]
  | .jp _ | .seImm _ _ | .sneImm _ _ | .seReg _ _ | .sneReg _ _ => [.pc]
  | .skp _ | .sknp _ => [.pc, .events]
  | .ldI _ | .addI _ | .ldF _ => [.index]
  | .ldDtVx _ => [.delay]
  | .ldStVx _ => [.sound]
  | .ldB _ => [.events]
  | _ => []

/-- Every instruction that completes keeps its frame. -/
theorem exec_keeps {i : Instr} {s t : State} (h : exec i s = .next t) :
    Keeps (destRegs i) (mayStore i) (mayChange i) s t := by
  cases i
  case cls => cases h; exact keeps_emit_setScreen (by decide) (by decide)
  case ret =>
    obtain ⟨_, _, -, rfl⟩ := exec_ret_next h
    exact keeps_setPc_withStack (by decide) (by decide)
  case call =>
    obtain ⟨-, rfl⟩ := exec_call_next h
    exact keeps_setPc_withStack (by simp [mayChange]) (by simp [mayChange])
  case jp | seImm | sneImm | seReg | sneReg => cases h; exact keeps_setPc (by simp [mayChange])
  case skp | sknp =>
    obtain rfl := keySkip_next h
    exact (keeps_emit (by simp [mayChange])).trans (keeps_skipIf (by simp [mayChange]))
  case ldImm | addImm | rnd | ldReg | or | and | xor | ldVxDt => cases h; exact keeps_setV (by simp [destRegs])
  case addReg | sub | shr | subn | shl => cases h; exact keeps_setFlag_setV (by simp [destRegs]) (by simp [destRegs])
  case ldI | addI | ldF => cases h; exact keeps_setI (by simp [mayChange])
  case drw =>
    obtain ⟨-, rfl⟩ := exec_drw_next h
    exact keeps_afterDraw ..
  case ldDtVx => cases h; exact keeps_setDelay (by simp [mayChange])
  case ldStVx => cases h; exact keeps_setSound (by simp [mayChange])
  case ldB =>
    have written {ws : List Byte} : Keeps [] (fun _ => True) [.events] s
        { s with mem := Memory.writeBytes s.mem s.i ws } :=
      keeps_writeBytes.mono (List.Subset.refl _) (fun _ _ => trivial) (List.nil_subset _)
    obtain ⟨ws, rfl | rfl⟩ := exec_ldB_next h
    · exact written
    · exact written.trans ((keeps_emit (by decide)).mono (List.Subset.refl _) (fun _ _ => trivial)
        (List.Subset.refl _))
  case ldMemVx =>
    obtain ⟨-, rfl⟩ := exec_ldMemVx_next h
    exact keeps_writeBytes.mono (List.Subset.refl _) (fun _ _ => trivial) (List.Subset.refl _)
  case ldVxMem =>
    obtain rfl := exec_ldVxMem_next h
    exact keeps_loadRegs fun r hr => by simpa [destRegs] using hr

/-! ### Memory, `pc`, the stack and the events, in full -/

/-- The two stores write a run of bytes at `I`; no other instruction touches memory. -/
theorem exec_mem {i : Instr} {s t : State} (h : exec i s = .next t) :
    ((∃ x, i = .ldB x ∨ i = .ldMemVx x) ∧ ∃ ws, t.mem = Memory.writeBytes s.mem s.i ws) ∨ t.mem = s.mem := by
  cases i
  case ldB x =>
    obtain ⟨ws, rfl | rfl⟩ := exec_ldB_next h
    all_goals exact .inl ⟨⟨x, .inl rfl⟩, ws, rfl⟩
  case ldMemVx x =>
    obtain ⟨-, rfl⟩ := exec_ldMemVx_next h
    exact .inl ⟨⟨x, .inr rfl⟩, _, rfl⟩
  case ret => obtain ⟨_, _, -, rfl⟩ := exec_ret_next h; exact .inr rfl
  case call => obtain ⟨-, rfl⟩ := exec_call_next h; exact .inr rfl
  case skp | sknp => obtain rfl := keySkip_next h; exact .inr rfl
  case drw => obtain ⟨-, rfl⟩ := exec_drw_next h; exact .inr rfl
  case ldVxMem => obtain rfl := exec_ldVxMem_next h; exact .inr rfl
  all_goals cases h; exact .inr rfl

/-- The instructions that skip. -/
def IsSkip (i : Instr) : Prop :=
  ∃ x y nn, i = .seImm x nn ∨ i = .sneImm x nn ∨ i = .seReg x y ∨ i = .sneReg x y ∨ i = .skp x ∨ i = .sknp x

theorem skipIf_pc_cases (c : Bool) (s : State) : (skipIf c s).pc = s.pc ∨ (skipIf c s).pc = s.pc + 2 := by
  cases c
  · exact .inl rfl
  · exact .inr rfl

theorem exec_pc {i : Instr} {s t : State} (h : exec i s = .next t) :
    t.pc = s.pc ∨ (i = .ret ∧ s.stack = t.stack ++ [t.pc]) ∨
      (∃ nnn, (i = .jp nnn ∨ i = .call nnn) ∧ t.pc = pcOperand nnn) ∨ (IsSkip i ∧ t.pc = s.pc + 2) := by
  cases i
  case ret =>
    obtain ⟨below, a, hs, rfl⟩ := exec_ret_next h
    exact .inr (.inl ⟨rfl, hs⟩)
  case jp nnn => cases h; exact .inr (.inr (.inl ⟨nnn, .inl rfl, rfl⟩))
  case call nnn =>
    obtain ⟨-, rfl⟩ := exec_call_next h
    exact .inr (.inr (.inl ⟨nnn, .inr rfl, rfl⟩))
  case seImm | sneImm | seReg | sneReg =>
    cases h
    exact (skipIf_pc_cases ..).imp_right fun hpc => .inr (.inr ⟨by simp [IsSkip], hpc⟩)
  case skp | sknp =>
    obtain rfl := keySkip_next h
    exact (skipIf_pc_cases ..).imp_right fun hpc => .inr (.inr ⟨by simp [IsSkip], hpc⟩)
  all_goals exact .inl ((exec_keeps h).pc (by simp [mayChange]))

theorem exec_stack {i : Instr} {s t : State} (h : exec i s = .next t) :
    t.stack = s.stack ∨
      ((∃ nnn, i = .call nnn) ∧ s.stackLimit ≠ some s.stack.length ∧ t.stack = s.stack ++ [s.pc]) ∨
      (i = .ret ∧ s.stack = t.stack ++ [t.pc]) := by
  cases i
  case ret =>
    obtain ⟨below, a, hs, rfl⟩ := exec_ret_next h
    exact .inr (.inr ⟨rfl, hs⟩)
  case call nnn =>
    obtain ⟨hroom, rfl⟩ := exec_call_next h
    exact .inr (.inl ⟨⟨nnn, rfl⟩, hroom, rfl⟩)
  all_goals exact .inl ((exec_keeps h).stack (by simp [mayChange]))

/-- The event list only grows. -/
theorem exec_out {i : Instr} {s t : State} (h : exec i s = .next t) : s.out <+: t.out := by
  cases i
  case cls => cases h; exact List.prefix_append ..
  case drw =>
    obtain ⟨-, rfl⟩ := exec_drw_next h
    rw [afterDraw_out]
    exact List.prefix_append ..
  case skp | sknp => obtain rfl := keySkip_next h; exact List.prefix_append ..
  case ldB =>
    obtain ⟨ws, rfl | rfl⟩ := exec_ldB_next h
    · exact List.prefix_refl _
    · exact List.prefix_append ..
  all_goals rw [(exec_keeps h).events (by simp [mayChange])]

/-- A timer that an instruction changes starts at the time of the step. -/
theorem exec_dt {i : Instr} {s t : State} (h : exec i s = .next t) : t.dt = s.dt ∨ t.dt.start = s.input.now := by
  cases i
  case ldDtVx => cases h; exact .inr rfl
  all_goals exact .inl ((exec_keeps h).delay (by simp [mayChange]))

theorem exec_st {i : Instr} {s t : State} (h : exec i s = .next t) : t.st = s.st ∨ t.st.start = s.input.now := by
  cases i
  case ldStVx => cases h; exact .inr rfl
  all_goals exact .inl ((exec_keeps h).sound (by simp [mayChange]))

/-! ### Who writes what -/

/-- Settles O47: only the two stores have a run of bytes to write. -/
theorem memoryWrittenOnlyByStores : Obligations.MemoryWrittenOnlyByStores := fun _ _ _ h =>
  (exec_mem h).imp And.left fun hmem a => by rw [hmem]

/-- Settles O48: the index is in the frame of every other instruction. -/
theorem indexWrittenOnlyByThree : Obligations.IndexWrittenOnlyByThree := by
  intro i s t h
  cases i
  case ldI nnn => exact .inl ⟨nnn, rfl⟩
  case addI x | ldF x => exact .inr (.inl ⟨x, by simp⟩)
  all_goals exact .inr (.inr ((exec_keeps h).index (by simp [mayChange])))

/-- Settles O49, from what each instruction does with `pc`. -/
theorem pcWrittenOnlyByControlFlow : Obligations.PcWrittenOnlyByControlFlow := by
  intro i s t h
  rcases exec_pc h with hpc | ⟨hret, -⟩ | ⟨nnn, hi, -⟩ | hskip
  · exact .inl hpc
  · exact .inr (.inl hret)
  · exact .inr (.inr (.inl ⟨nnn, hi⟩))
  · exact .inr (.inr (.inr hskip))

/-- Settles O50, from what each instruction does with the stack. -/
theorem stackChangedOnlyByCallAndReturn : Obligations.StackChangedOnlyByCallAndReturn := fun _ _ _ h =>
  (exec_stack h).imp_right fun hchange => hchange.imp_left fun ⟨hcall, _, hstack⟩ => ⟨hcall, hstack⟩

/-- Settles O51: a register that changes is one of those the instruction may write. -/
theorem vfWrittenOnlyAsFlagOrDestination : Obligations.VfWrittenOnlyAsFlagOrDestination := by
  intro i s t h hvf
  have hdest : vf ∈ destRegs i := by
    by_contra hnot
    exact hvf ((exec_keeps h).regs vf hnot)
  cases i
  case addReg | sub | shr | subn | shl | drw => exact .inl (by simp)
  case ldVxMem x =>
    have hx : vf ≤ x := by simpa [destRegs] using hdest
    have hx' : x = vf := le_antisymm (Fin.le_last x) hx
    exact .inr ⟨0, 0, by simp [hx']⟩
  case ldImm | addImm | rnd | ldReg | or | and | xor | ldVxDt =>
    obtain rfl := List.mem_singleton.1 hdest
    exact .inr (by simp)
  all_goals exact absurd hdest (by simp [destRegs])

/-! ### Errors -/

/-- Settles O46: an instruction that can stop does so by `raise`, at its one check. -/
theorem errorsArePrecise : Obligations.ErrorsArePrecise := by
  intro i s
  cases i
  case ret =>
    rcases stack_cases s with hs | ⟨below, a, hs⟩
    · exact .inr ⟨_, exec_ret_of_nil hs, .inl ⟨rfl, rfl⟩⟩
    · exact .inl ⟨_, exec_ret_of_append hs⟩
  case call nnn =>
    by_cases hs : s.stackLimit = some s.stack.length
    · exact .inr ⟨_, exec_call_of_full nnn hs, .inr (.inl ⟨⟨nnn, rfl⟩, rfl⟩)⟩
    · exact .inl ⟨_, exec_call_of_room nnn hs⟩
  case skp x =>
    rcases keySkip_cases x id s with ⟨-, hs⟩ | ⟨-, hs⟩
    · exact .inr ⟨_, hs, .inr (.inr (.inl ⟨⟨x, .inl rfl⟩, _, rfl⟩))⟩
    · exact .inl ⟨_, hs⟩
  case sknp x =>
    rcases keySkip_cases x not s with ⟨-, hs⟩ | ⟨-, hs⟩
    · exact .inr ⟨_, hs, .inr (.inr (.inl ⟨⟨x, .inr rfl⟩, _, rfl⟩))⟩
    · exact .inl ⟨_, hs⟩
  case drw x y n =>
    by_cases hs : n = 0 ∨ s.i + n.toNat ≤ 0x1000
    · exact .inl ⟨_, exec_drw_inRange x y hs⟩
    · exact .inr ⟨_, exec_drw_outOfRange x y hs, .inr (.inr (.inr ⟨⟨x, y, n, .inl rfl⟩, rfl⟩))⟩
  case ldMemVx x =>
    by_cases hs : s.i + x.val ≤ 0xFFF
    · exact .inl ⟨_, exec_ldMemVx_inRange hs⟩
    · exact .inr ⟨_, exec_ldMemVx_outOfRange (by omega),
        .inr (.inr (.inr ⟨⟨x, x, 0, .inr (.inl rfl)⟩, rfl⟩))⟩
  case ldVxMem x =>
    by_cases hs : s.i + x.val ≤ 0xFFF
    · exact .inl ⟨_, exec_ldVxMem_inRange hs⟩
    · exact .inr ⟨_, exec_ldVxMem_outOfRange (by omega),
        .inr (.inr (.inr ⟨⟨x, x, 0, .inr (.inr rfl)⟩, rfl⟩))⟩
  case ldB x =>
    obtain ⟨ws, hs | hs⟩ := exec_ldB_cases x s
    all_goals exact .inl ⟨_, hs⟩
  all_goals exact .inl ⟨_, rfl⟩

end Sys2Proof.Machine
end

section
/-! Proofs about what an instruction does not read: the sound timer and the inputs that it does not sample. -/

namespace Sys2Proof.Machine

/-! ### A change of what an instruction does not read -/

/-- A change of the sound timer and of the step's inputs. -/
def mapOutside (g : Timer → Timer) (j : StepInput → StepInput) (s : State) : State :=
  { s with st := g s.st, input := j s.input }

/-- The inputs that an instruction samples are the same after a change `j` of the step's inputs. -/
structure KeepsSampled (i : Instr) (j : StepInput → StepInput) : Prop where
  random : (∃ x nn, i = .rnd x nn) → ∀ p, (j p).random = p.random
  keys : (∃ x, i = .skp x ∨ i = .sknp x) → ∀ p, (j p).keys = p.keys
  now : (∃ x, i = .ldVxDt x ∨ i = .ldDtVx x ∨ i = .ldStVx x) → ∀ p, (j p).now = p.now

section
variable (g : Timer → Timer) (j : StepInput → StepInput)

/-- A checked access does not depend on what its body does not read. -/
theorem withAccess_mapOutside (base k : Nat) (s t : State) :
    withAccess base k (mapOutside g j s) (.next (mapOutside g j t)) =
      mapState (mapOutside g j) (withAccess base k s (.next t)) := by
  by_cases h : accessInRange base k = true
  · rw [withAccess_inRange h, withAccess_inRange h]
    rfl
  · rw [withAccess_outOfRange h, withAccess_outOfRange h]
    rfl

theorem exec_ret_mapOutside (s : State) :
    exec .ret (mapOutside g j s) = mapState (mapOutside g j) (exec .ret s) := by
  rcases stack_cases s with hs | ⟨below, a, hs⟩
  · rw [exec_ret_of_nil hs, exec_ret_of_nil (s := mapOutside g j s) hs]
    rfl
  · rw [exec_ret_of_append hs, exec_ret_of_append (s := mapOutside g j s) hs]
    rfl

theorem exec_call_mapOutside (nnn : Addr) (s : State) :
    exec (.call nnn) (mapOutside g j s) = mapState (mapOutside g j) (exec (.call nnn) s) := by
  by_cases hs : s.stackLimit = some s.stack.length
  · rw [exec_call_of_full nnn hs, exec_call_of_full (s := mapOutside g j s) nnn hs]
    rfl
  · rw [exec_call_of_room nnn hs, exec_call_of_room (s := mapOutside g j s) nnn hs]
    rfl

theorem exec_ldB_mapOutside (x : Reg) (s : State) :
    exec (.ldB x) (mapOutside g j s) = mapState (mapOutside g j) (exec (.ldB x) s) := by
  by_cases h : s.i ≤ 0xFFD
  · rw [exec_ldB_inRange h, exec_ldB_inRange (s := mapOutside g j s) h]
    rfl
  · have hout : s.i > 0xFFD := by omega
    rcases Bool.eq_false_or_eq_true s.bcdPartial with hp | hp
    · rw [exec_ldB_partial hout hp, exec_ldB_partial (s := mapOutside g j s) hout hp]
      rfl
    · rw [exec_ldB_report hout hp, exec_ldB_report (s := mapOutside g j s) hout hp]
      rfl

theorem keySkip_mapOutside (hkeys : ∀ p, (j p).keys = p.keys) (x : Reg) (take : Bool → Bool) (s : State) :
    keySkip x take (mapOutside g j s) = mapState (mapOutside g j) (keySkip x take s) := by
  have answer (k : Byte) : isPressed (mapOutside g j s) k = isPressed s k :=
    congrArg (·.getLsbD k.toNat) (hkeys s.input)
  have register : getV (mapOutside g j s) x = getV s x := rfl
  simp only [keySkip, answer, register]
  split_ifs <;> rfl

/-- What an instruction does not sample passes through it. Fx18 writes the sound timer, so it is not among these unless
the timer is left alone. -/
theorem exec_mapOutside {i : Instr} (hsound : (∃ x, i = .ldStVx x) → g = id) (hj : KeepsSampled i j) (s : State) :
    exec i (mapOutside g j s) = mapState (mapOutside g j) (exec i s) := by
  obtain ⟨hrandom, hkeys, hnow⟩ := hj
  have sameTime (hi : ∃ x, i = .ldVxDt x ∨ i = .ldDtVx x ∨ i = .ldStVx x) : now (mapOutside g j s) = now s :=
    hnow hi s.input
  cases i
  case ret => exact exec_ret_mapOutside g j s
  case call nnn => exact exec_call_mapOutside g j nnn s
  case ldB x => exact exec_ldB_mapOutside g j x s
  case skp x => exact keySkip_mapOutside g j (hkeys ⟨x, .inl rfl⟩) x id s
  case sknp x => exact keySkip_mapOutside g j (hkeys ⟨x, .inr rfl⟩) x not s
  case drw x y n => exact withAccess_mapOutside g j _ _ s (afterDraw x y n s)
  case ldMemVx x =>
    exact withAccess_mapOutside g j _ _ s { s with mem := Memory.writeBytes s.mem s.i (regsUpTo s x) }
  case ldVxMem x => exact withAccess_mapOutside g j _ _ s (loadRegs s x)
  case rnd x nn =>
    have sameByte : randomByte (mapOutside g j s) = randomByte s := hrandom ⟨x, nn, rfl⟩ s.input
    simp only [exec, execRnd, sameByte]
    rfl
  case ldVxDt x =>
    simp only [exec, execLdVxDt, sameTime ⟨x, .inl rfl⟩]
    rfl
  case ldDtVx x =>
    simp only [exec, execLdDtVx, sameTime ⟨x, .inr (.inl rfl)⟩]
    rfl
  case ldStVx x =>
    obtain rfl := hsound ⟨x, rfl⟩
    simp only [exec, execLdStVx, sameTime ⟨x, .inr (.inr rfl)⟩]
    rfl
  all_goals rfl

end

/-! ### The obligations -/

theorem keepsSampled_id (i : Instr) : KeepsSampled i id :=
  ⟨fun _ _ => rfl, fun _ _ => rfl, fun _ _ => rfl⟩

/-- Settles O52: the sound timer passes through every instruction but Fx18, which overwrites it. -/
theorem soundTimerIsUnobserved : Obligations.SoundTimerIsUnobserved := by
  refine fun i s z => ⟨?overwritten, fun hi => ?unread, fun _ => rfl, ?started⟩
  case overwritten =>
    rintro ⟨x, rfl⟩
    rfl
  case unread => exact exec_mapOutside (fun _ => z) id (fun hx => absurd hx hi) (keepsSampled_id i) s
  case started =>
    rintro x rfl
    exact ⟨_, rfl, fun _ => rfl⟩

/-- Settles O53: each input passes through every instruction that does not sample it. -/
theorem inputsReadOnlyWhereSampled : Obligations.InputsReadOnlyWhereSampled := by
  refine fun i s => ⟨fun b hi => ?random, fun k hi => ?keys, fun z hi => ?now⟩
  case random =>
    exact exec_mapOutside id (fun p => { p with random := b }) (fun _ => rfl)
      ⟨fun hx => absurd hx hi, fun _ _ => rfl, fun _ _ => rfl⟩ s
  case keys =>
    exact exec_mapOutside id (fun p => { p with keys := k }) (fun _ => rfl)
      ⟨fun _ _ => rfl, fun hx => absurd hx hi, fun _ _ => rfl⟩ s
  case now =>
    exact exec_mapOutside id (fun p => { p with now := z }) (fun _ => rfl)
      ⟨fun _ _ => rfl, fun _ _ => rfl, fun hx => absurd hx hi⟩ s

end Sys2Proof.Machine
end

section
/-! Proofs about the whole machine: the invariant, and the bookkeeping of a step. -/

namespace Sys2Proof.Machine

/-! ### The invariant through a step -/

/-- Sampling a step's inputs keeps the invariant, because the time does not go back (43_timers R105). -/
theorem inv_sampleInput {s : State} (h : Inv s) : Inv (sampleInput s) :=
  have later := input_now_sampleInput s
  { memWf := h.memWf
    pcLe := h.pcLe
    stackLe := h.stackLe
    stackFits := h.stackFits
    dtStarted := h.dtStarted.trans later
    stStarted := h.stStarted.trans later
    timeNonneg := h.timeNonneg.trans later }

/-- The advance after a fetch in range keeps the invariant, and leaves `pc` room for a skip (10_state R25). -/
theorem inv_advancePc {s : State} (h : Inv s) (hfetch : s.pc.toNat + 2 ≤ 0x1000) :
    (advancePc s).pc.toNat ≤ 0x1000 ∧ Inv (advancePc s) := by
  have hpc : (advancePc s).pc.toNat ≤ 0x1000 := by
    rw [advancePc_pc, BitVec.toNat_add_of_lt (by simpa using by omega)]
    simpa using hfetch
  exact ⟨hpc, { h with pcLe := hpc.trans (by decide) }⟩

theorem inv_emit {s : State} (e : Event) (h : Inv s) : Inv (emit e s) := { h with }

theorem inv_closed {s : State} (h : Inv s) : Inv { s with status := .closed } := { h with }

/-- Every instruction that completes keeps the invariant, from a `pc` that a fetch has advanced. -/
theorem exec_keeps_inv {i : Instr} {s t : State} (hs : Inv s) (hpc : s.pc.toNat ≤ 0x1000) (h : exec i s = .next t) :
    Inv t := by
  have hinput : t.input = s.input := (exec_keeps h).input
  have hlimit : t.stackLimit = s.stackLimit := (exec_keeps h).stackLimit
  constructor
  case memWf =>
    rcases exec_mem h with ⟨-, ws, hmem⟩ | hmem <;> rw [hmem]
    · exact Memory.wf_writeBytes hs.memWf _ _
    · exact hs.memWf
  case pcLe =>
    rcases exec_pc h with hp | ⟨-, hstack⟩ | ⟨nnn, -, hp⟩ | ⟨-, hp⟩
    · rw [hp]
      exact hs.pcLe
    · exact (hs.stackLe t.pc (by simp [hstack])).trans (by decide)
    · rw [hp, toNat_pcOperand]
      exact nnn.isLt.le.trans (by decide)
    · rw [hp]
      bv_omega
  case stackLe =>
    intro a ha
    rcases exec_stack h with hstack | ⟨-, -, hstack⟩ | ⟨-, hstack⟩
    · exact hs.stackLe a (hstack ▸ ha)
    · rcases List.mem_append.1 (hstack ▸ ha) with ha' | ha'
      · exact hs.stackLe a ha'
      · rwa [List.mem_singleton.1 ha']
    · exact hs.stackLe a (by simp [hstack, ha])
  case stackFits =>
    intro limit hl
    rw [hlimit] at hl
    have fits := hs.stackFits limit hl
    rcases exec_stack h with hstack | ⟨-, hroom, hstack⟩ | ⟨-, hstack⟩
    · rwa [hstack]
    · have hne : s.stack.length ≠ limit := fun he => hroom (he ▸ hl)
      rw [hstack, List.length_append, List.length_singleton]
      omega
    · rw [hstack, List.length_append] at fits
      omega
  case dtStarted =>
    rw [hinput]
    rcases exec_dt h with hdt | hstart
    · exact hdt ▸ hs.dtStarted
    · exact hstart.le
  case stStarted =>
    rw [hinput]
    rcases exec_st h with hst | hstart
    · exact hst ▸ hs.stStarted
    · exact hstart.le
  case timeNonneg => exact hinput ▸ hs.timeNonneg

theorem step_keeps_inv {s t : State} (hs : Inv s) (h : step s = .next t) : Inv t := by
  obtain ⟨-, hrange, i, -, hexec⟩ := step_next h
  have hfetch : s.pc.toNat + 2 ≤ 0x1000 := ((accessInRange_iff _ _).1 hrange).resolve_left (by decide)
  obtain ⟨hpc, hadvanced⟩ := inv_advancePc (inv_sampleInput hs) hfetch
  exact exec_keeps_inv hadvanced hpc hexec

theorem runOnce_keeps_inv {s t : State} (hs : Inv s) (h : runOnce s = .next t) : Inv t := by
  by_cases hrun : s.status = .running
  · rcases Bool.eq_false_or_eq_true (nextInput s).closed with hc | hc
    · rw [runOnce_of_closed hrun hc] at h
      cases h
      exact inv_closed (inv_emit _ hs)
    · rw [runOnce_of_open hrun hc] at h
      exact step_keeps_inv (inv_emit _ hs) h
  · rw [runOnce_of_not_running hrun] at h
    cases h

/-- Settles O39: a turn of the run loop is a step, or closes the core. -/
theorem stepKeepsInvariant : Obligations.StepKeepsInvariant := fun _ _ hs h =>
  h.elim (step_keeps_inv hs) (runOnce_keeps_inv hs)

/-- Settles O54: the frame of every instruction holds the status and the parameters, and sampling the inputs is what
counts the step and moves the time. -/
theorem stepBookkeeping : Obligations.StepBookkeeping := by
  intro s t h
  obtain ⟨hrun, -, i, -, hexec⟩ := step_next h
  have frame := exec_keeps hexec
  have events : s.out <+: t.out := exec_out (s := advancePc (sampleInput s)) hexec
  refine ⟨frame.status.trans hrun, frame.bcdPartial, frame.stackLimit, frame.loaded, ?time, frame.steps, events⟩
  rw [frame.input]
  exact input_now_sampleInput s

end Sys2Proof.Machine
end

section
/-! Proofs of 70_reset_and_hazards and 20_memory: construction and `load`. -/

namespace Sys2Proof.Machine

/-! ### Construction -/

/-- Settles O41: memory is written from the empty one, the stack is empty, and both timers start at the construction
time. -/
theorem launchMeetsInvariant : Obligations.LaunchMeetsInvariant := by
  intro l h
  obtain ⟨-, htime⟩ := Bool.and_eq_true_iff.1 h
  exact {
    memWf := Memory.wf_writeBytes (Memory.wf_writeBytes rfl _ _) _ _
    pcLe := (by decide : (0x200 : Word).toNat ≤ 0x1002)
    stackLe := fun _ ha => nomatch ha
    stackFits := fun _ _ => Nat.zero_le _
    dtStarted := le_refl _
    stStarted := le_refl _
    timeNonneg := of_decide_eq_true htime }

/-- The reference font is what unlisted addresses read as, so that writing it lists nothing (20_memory R40). -/
theorem writeBytes_defaultFont :
    Memory.writeBytes (Memory.writeBytes [] 0 []) Config.fontBase defaultFont.toList = [] := by
  decide +kernel

/-- Settles O43: the reference launch lists no byte of memory, and its other values are written out in both. -/
theorem resetIsReferenceLaunch : Obligations.ResetIsReferenceLaunch := by
  simp only [Obligations.ResetIsReferenceLaunch, launch, referenceLaunch, writeBytes_defaultFont]
  rfl

/-- Settles O40: the reset state is a launch that the spec allows. -/
theorem resetMeetsInvariant : Obligations.ResetMeetsInvariant := by
  have h := launchMeetsInvariant referenceLaunch (by decide +kernel)
  rwa [resetIsReferenceLaunch] at h

/-- The font stands where the spec puts it (20_memory R39). -/
theorem read_launch_font (l : Launch) (k : Fin 80) : Memory.read (launch l).mem (0x50 + k.val) = l.font.get k := by
  have hlen : l.font.toList.length = 80 := l.font.length_toList
  have hk : k.val < l.font.toList.length := by omega
  rw [launch, Memory.read_writeBytes_inside _ _ _ _ hk (by simp only [Config.fontBase]; omega)]
  simp [Vector.get_eq_getElem]

/-- Outside the font, memory holds `INIT_MEM` (10_state R35). -/
theorem read_launch_initMem {l : Launch} (h : WellFormed.launchMem l = true) {a : Nat} (ha : a < l.initMem.length)
    (hfont : a < 0x50 ∨ 0x9F < a) : some (Memory.read (launch l).mem a) = l.initMem[a]? := by
  have hlen : l.font.toList.length = 80 := l.font.length_toList
  have hmem : l.initMem.length ≤ 0x1000 := of_decide_eq_true h
  have listed := Memory.read_writeBytes_inside [] 0 l.initMem a ha (by omega)
  rw [Nat.zero_add] at listed
  rw [launch, Memory.read_writeBytes_outside _ _ _ _ (by simp only [Config.fontBase]; omega), listed,
    List.getElem?_eq_getElem ha]

/-- Settles O42: all but memory is written out by `launch`. -/
theorem launchFollowsResetTable : Obligations.LaunchFollowsResetTable := by
  intro l h
  obtain ⟨hmem, -⟩ := Bool.and_eq_true_iff.1 h
  exact ⟨rfl, rfl, rfl, rfl, rfl, rfl, rfl, rfl, read_launch_font l, fun _ => read_launch_initMem hmem⟩

/-! ### Load -/

/-- Settles O44: an image that fits the program area is one run of bytes inside memory. -/
theorem loadCopiesImage : Obligations.LoadCopiesImage := by
  intro s bytes hloaded hsteps hlen
  refine ⟨{ s with mem := Memory.writeBytes s.mem 0x200 bytes, loaded := true }, ?load, fun k hk => ?image,
    fun a ha => Memory.read_writeBytes_outside _ _ _ _ ha, rfl⟩
  case load => simp [load, hloaded, hsteps, WellFormed.image, hlen]
  case image => rw [Memory.read_writeBytes_inside _ _ _ _ hk (by omega), List.getElem?_eq_getElem hk]

/-- Settles O45: the check for misuse comes first, then the check of the length. -/
theorem loadRefusesMisuse : Obligations.LoadRefusesMisuse := by
  refine fun s bytes => ⟨fun h => ?late, fun hloaded hsteps hlen => ?long⟩
  case late => simp [load, h]
  case long => simp [load, hloaded, hsteps, WellFormed.image, hlen]

end Sys2Proof.Machine
end
